-- ==== Sys2Proof/Word.lean ====
section
/-! DEFINITION. The word types of the core (00_scope.md R8, R11, R12). Every value is unsigned. -/

namespace Sys2Proof

/-- A memory cell, a general register, a timer, an immediate `nn` (R8 `V_WIDTH`, `TIMER_WIDTH`). -/
abbrev Byte := BitVec 8

/-- An instruction word, `I`, `pc`, a return address (R8 `I_WIDTH`, `PC_WIDTH`). -/
abbrev Word := BitVec 16

/-- The 12-bit immediate `nnn` (R71, R74). -/
abbrev Imm12 := BitVec 12

/-- A register number x or y, and a key code: 0x0 to 0xF, "always in range by their 4-bit width" (R75, R92). -/
abbrev Reg := Fin 16

end Sys2Proof
end

