-- ==== Sys2Proof/Config.lean ====
section
/-! DEFINITION. What is fixed for one machine: the sizes of R8, the parameters of R9, and the free value
of `random_byte()` (R143). -/

namespace Sys2Proof

/-- `MEM_SIZE`: cells 0x000 to 0xFFF (R8, R21). -/
abbrev memSize : Nat := 4096

/-- `FONT_LEN`: 16 glyphs of 5 bytes from `FONT_BASE` = 0x000 (R8, R31). -/
abbrev fontLen : Nat := 80

/-- `PROGRAM_BASE`, where LOAD writes and the first fetch reads (R8, R251, R252). -/
abbrev programBase : Nat := 0x200

/-- `MAX_PROGRAM` = 4096 - 0x200 (R8, R252). -/
abbrev maxProgram : Nat := memSize - programBase

/-- `STACK_DEPTH` (R8, R26). -/
abbrev stackDepth : Nat := 16

/-- `DISPLAY_W` (R8, R180). -/
abbrev displayW : Nat := 64

/-- `DISPLAY_H` (R8, R180). -/
abbrev displayH : Nat := 32

/-- `P_FAMILY0_KEY`: the field family 0x0 sub-dispatches on (R9, R77). -/
inductive Family0Key where
  | lowByte
  | lowNibble
  | fullWord
  deriving DecidableEq, Repr

/-- The default `FONT` of R31, one glyph a line. PRESUMED: the spec itself marks these bytes as general
knowledge, not the source's (D12; log 7). No statement of this package rests on them. -/
def defaultFont : Vector Byte fontLen := #v[
  0xF0, 0x90, 0x90, 0x90, 0xF0,
  0x20, 0x60, 0x20, 0x20, 0x70,
  0xF0, 0x10, 0xF0, 0x80, 0xF0,
  0xF0, 0x10, 0xF0, 0x10, 0xF0,
  0x90, 0x90, 0xF0, 0x10, 0x10,
  0xF0, 0x80, 0xF0, 0x10, 0xF0,
  0xF0, 0x80, 0xF0, 0x90, 0xF0,
  0xF0, 0x10, 0x20, 0x40, 0x40,
  0xF0, 0x90, 0xF0, 0x90, 0xF0,
  0xF0, 0x90, 0xF0, 0x10, 0xF0,
  0xF0, 0x90, 0xF0, 0x90, 0x90,
  0xE0, 0x90, 0xE0, 0x90, 0xE0,
  0xF0, 0x80, 0x80, 0x80, 0xF0,
  0xE0, 0x90, 0x90, 0x90, 0xE0,
  0xF0, 0x80, 0xF0, 0x80, 0xF0,
  0xF0, 0x80, 0xF0, 0x80, 0x80]

/-- The named parameters of R9, fixed when the machine is created (R250). The oracle `RNG` is
`Config.randomByte`. -/
structure Params where
  /-- `QUIRK`, the flag CYCLE executes with (R10, R100). -/
  quirk : Bool
  /-- `FONT`, the reset contents of 0x000 to 0x04F (R31). -/
  font : Vector Byte fontLen
  /-- `P_FAMILY0_KEY` (R77). -/
  family0Key : Family0Key
  /-- `P_STRICT_59`: do 5XYn and 9XYn require n = 0 (R78). -/
  strict59 : Bool
  /-- `P_8XY1_OR`: is 8XY1 a bitwise OR (R79, R134). -/
  or8xy1 : Bool
  deriving DecidableEq, Repr

/-- The defaults of R9. -/
def Params.default : Params :=
  { quirk := false, font := defaultFont, family0Key := .lowByte, strict59 := false, or8xy1 := false }

/-- The setting of the parameters at which EVERY row of spec/opcode_table.json is an instruction: the
defaults, with the OR row present (the table's note: "present only when P_8XY1_OR=true"; log 20). -/
def Params.table : Params := { Params.default with or8xy1 := true }

/-- The k-th value `random_byte()` gives (R143, D15): "a free draw under no law". It has no body, so no
proof can rest on a value of it (log 4). -/
opaque Config.randomByte : Nat → Byte

end Sys2Proof
end

