-- ==== Sys2Proof/Syntax.lean ====
section
/-! DEFINITION. The instructions: one constructor per row of spec/opcode_table.json, in the table's order,
with the operands the row's rule reads (30_encoding.md R71 to R81, R85). -/

namespace Sys2Proof

/-- An instruction. Registers x, y and the sprite height n are numbers 0 to 15; `nn` and `nnn` are the
immediates of R74. -/
inductive Instr where
  /-- 00E0 `CLS` (R185) -/
  | cls
  /-- 00EE `RET` (R111) -/
  | ret
  /-- 1NNN `JP nnn` (R112) -/
  | jp (nnn : Imm12)
  /-- 2NNN `CALL nnn` (R113) -/
  | call (nnn : Imm12)
  /-- 3XNN `SE Vx, nn` (R114) -/
  | seImm (x : Reg) (nn : Byte)
  /-- 4XNN `SNE Vx, nn` (R115) -/
  | sneImm (x : Reg) (nn : Byte)
  /-- 5XY0 `SE Vx, Vy` (R116) -/
  | seReg (x y : Reg)
  /-- 6XNN `LD Vx, nn` (R131) -/
  | ldImm (x : Reg) (nn : Byte)
  /-- 7XNN `ADD Vx, nn` (R132) -/
  | addImm (x : Reg) (nn : Byte)
  /-- 8XY0 `LD Vx, Vy` (R133) -/
  | ldReg (x y : Reg)
  /-- 8XY1 `OR Vx, Vy`, an instruction only if `P_8XY1_OR` (R134) -/
  | orReg (x y : Reg)
  /-- 8XY2 `AND Vx, Vy` (R135) -/
  | andReg (x y : Reg)
  /-- 8XY3 `XOR Vx, Vy` (R136) -/
  | xorReg (x y : Reg)
  /-- 8XY4 `ADD Vx, Vy` (R137) -/
  | addReg (x y : Reg)
  /-- 8XY5 `SUB Vx, Vy` (R138) -/
  | sub (x y : Reg)
  /-- 8XY6 `SHR Vx, Vy` (R140) -/
  | shr (x y : Reg)
  /-- 8XY7 `SUBN Vx, Vy` (R139) -/
  | subn (x y : Reg)
  /-- 8XYE `SHL Vx, Vy` (R141) -/
  | shl (x y : Reg)
  /-- 9XY0 `SNE Vx, Vy` (R117) -/
  | sneReg (x y : Reg)
  /-- ANNN `LD I, nnn` (R161) -/
  | ldI (nnn : Imm12)
  /-- BNNN `JP V0, nnn`; in quirk mode x is nnn[11:8] (R118) -/
  | jpOff (nnn : Imm12)
  /-- CXNN `RND Vx, nn` (R142) -/
  | rnd (x : Reg) (nn : Byte)
  /-- DXYN `DRW Vx, Vy, n` (R186) -/
  | drw (x y : Reg) (n : Fin 16)
  /-- EX9E `SKP Vx` (R201) -/
  | skp (x : Reg)
  /-- EXA1 `SKNP Vx` (R202) -/
  | sknp (x : Reg)
  /-- FX07 `LD Vx, DT` (R203) -/
  | ldVxDt (x : Reg)
  /-- FX0A `LD Vx, K` (R206) -/
  | ldVxK (x : Reg)
  /-- FX15 `LD DT, Vx` (R204) -/
  | ldDtVx (x : Reg)
  /-- FX18 `LD ST, Vx` (R205) -/
  | ldStVx (x : Reg)
  /-- FX1E `ADD I, Vx` (R162) -/
  | addIVx (x : Reg)
  /-- FX29 `LD F, Vx` (R163) -/
  | ldFVx (x : Reg)
  /-- FX33 `LD B, Vx` (R164) -/
  | ldBVx (x : Reg)
  /-- FX55 `LD [I], Vx` (R165) -/
  | ldMemVx (x : Reg)
  /-- FX65 `LD Vx, [I]` (R166) -/
  | ldVxMem (x : Reg)
  /-- Any word no other row claims; it keeps the word, so that `DW` gives it back (R82, R85, R99) -/
  | unrecognized (w : Word)
  deriving DecidableEq, Repr

end Sys2Proof
end

