-- ==== Sys2Proof/WellFormed.lean ====
section
/-! DEFINITION. Which terms of `Instr` stand for a word of the machine. The register numbers and immediates
are in range by their types; what is left to check depends on the parameters of R9. -/

namespace Sys2Proof

/-- The unrecognized words, listed family by family as R82 lists them, with the parameters of R77 (family
0x0), R78 (families 0x5 and 0x9) and R79 (8XY1). Written from the list, not from the decoder. -/
def unrecognizedWord (p : Params) (w : Word) : Bool :=
  let f := w.extractLsb' 12 4
  let n := w.extractLsb' 0 4
  let nn := w.extractLsb' 0 8
  match f.toNat with
  | 0x0 =>
    match p.family0Key with
    | .lowByte => nn != 0xE0 && nn != 0xEE
    | .lowNibble => n != 0x0 && n != 0xE
    | .fullWord => w != 0x00E0 && w != 0x00EE
  | 0x5 => p.strict59 && n != 0
  | 0x9 => p.strict59 && n != 0
  | 0x8 => (n == 1 && !p.or8xy1) || (0x8 ≤ n.toNat && n.toNat ≤ 0xD) || n == 0xF
  | 0xE => !([0x9E, 0xA1] : List Byte).contains nn
  | 0xF => !([0x07, 0x0A, 0x15, 0x18, 0x1E, 0x29, 0x33, 0x55, 0x65] : List Byte).contains nn
  | _ => false

/-- An instruction is well formed when some word of a machine with parameters `p` is that instruction: OR
needs `P_8XY1_OR` (R134), an unrecognized word must be one of R82's, every other term is one. -/
def Instr.wellFormed (p : Params) : Instr → Bool
  | .cls => true
  | .ret => true
  | .jp _ => true
  | .call _ => true
  | .seImm _ _ => true
  | .sneImm _ _ => true
  | .seReg _ _ => true
  | .ldImm _ _ => true
  | .addImm _ _ => true
  | .ldReg _ _ => true
  | .orReg _ _ => p.or8xy1
  | .andReg _ _ => true
  | .xorReg _ _ => true
  | .addReg _ _ => true
  | .sub _ _ => true
  | .shr _ _ => true
  | .subn _ _ => true
  | .shl _ _ => true
  | .sneReg _ _ => true
  | .ldI _ => true
  | .jpOff _ => true
  | .rnd _ _ => true
  | .drw _ _ _ => true
  | .skp _ => true
  | .sknp _ => true
  | .ldVxDt _ => true
  | .ldVxK _ => true
  | .ldDtVx _ => true
  | .ldStVx _ => true
  | .addIVx _ => true
  | .ldFVx _ => true
  | .ldBVx _ => true
  | .ldMemVx _ => true
  | .ldVxMem _ => true
  | .unrecognized w => unrecognizedWord p w

end Sys2Proof
end

