-- ==== Sys2Proof/Decode.lean ====
section
/-! DEFINITION. The decoder of 30_encoding.md R76 to R81, total on every word and on every byte list, and the
encoder written from the same layouts (R72, R85). -/

namespace Sys2Proof

/-! ## Fields (R71) -/

/-- `f`, bits 15:12. -/
def fieldF (w : Word) : BitVec 4 := w.extractLsb' 12 4

/-- `x`, bits 11:8. -/
def fieldX (w : Word) : Reg := (w.extractLsb' 8 4).toFin

/-- `y`, bits 7:4. -/
def fieldY (w : Word) : Reg := (w.extractLsb' 4 4).toFin

/-- `n`, bits 3:0. -/
def fieldN (w : Word) : Fin 16 := (w.extractLsb' 0 4).toFin

/-- `nn`, bits 7:0. -/
def fieldNN (w : Word) : Byte := w.extractLsb' 0 8

/-- `nnn`, bits 11:0. -/
def fieldNNN (w : Word) : Imm12 := w.extractLsb' 0 12

/-! ## Decoding -/

/-- Family 0x0, keyed as `P_FAMILY0_KEY` says (R77). -/
def decodeFamily0 (p : Params) (w : Word) : Instr :=
  match p.family0Key with
  | .lowByte => if fieldNN w = 0xE0 then .cls else if fieldNN w = 0xEE then .ret else .unrecognized w
  | .lowNibble => if fieldN w = 0x0 then .cls else if fieldN w = 0xE then .ret else .unrecognized w
  | .fullWord => if w = 0x00E0 then .cls else if w = 0x00EE then .ret else .unrecognized w

/-- Families 0x5 and 0x9: is the word an instruction, given `P_STRICT_59` (R78). -/
def nAllowed59 (p : Params) (w : Word) : Bool := !p.strict59 || fieldN w == 0

/-- Family 0x8, keyed on n (R79). -/
def decodeFamily8 (p : Params) (w : Word) : Instr :=
  match (fieldN w).val with
  | 0x0 => .ldReg (fieldX w) (fieldY w)
  | 0x1 => if p.or8xy1 then .orReg (fieldX w) (fieldY w) else .unrecognized w
  | 0x2 => .andReg (fieldX w) (fieldY w)
  | 0x3 => .xorReg (fieldX w) (fieldY w)
  | 0x4 => .addReg (fieldX w) (fieldY w)
  | 0x5 => .sub (fieldX w) (fieldY w)
  | 0x6 => .shr (fieldX w) (fieldY w)
  | 0x7 => .subn (fieldX w) (fieldY w)
  | 0xE => .shl (fieldX w) (fieldY w)
  | _ => .unrecognized w

/-- Family 0xE, keyed on nn (R80). -/
def decodeFamilyE (w : Word) : Instr :=
  if fieldNN w = 0x9E then .skp (fieldX w)
  else if fieldNN w = 0xA1 then .sknp (fieldX w)
  else .unrecognized w

/-- Family 0xF, keyed on nn (R81). -/
def decodeFamilyF (w : Word) : Instr :=
  if fieldNN w = 0x07 then .ldVxDt (fieldX w)
  else if fieldNN w = 0x0A then .ldVxK (fieldX w)
  else if fieldNN w = 0x15 then .ldDtVx (fieldX w)
  else if fieldNN w = 0x18 then .ldStVx (fieldX w)
  else if fieldNN w = 0x1E then .addIVx (fieldX w)
  else if fieldNN w = 0x29 then .ldFVx (fieldX w)
  else if fieldNN w = 0x33 then .ldBVx (fieldX w)
  else if fieldNN w = 0x55 then .ldMemVx (fieldX w)
  else if fieldNN w = 0x65 then .ldVxMem (fieldX w)
  else .unrecognized w

/-- `decode(w)` of R76: every 16-bit word is exactly one instruction or `UNRECOGNIZED`. -/
def decode (p : Params) (w : Word) : Instr :=
  match (fieldF w).toNat with
  | 0x0 => decodeFamily0 p w
  | 0x1 => .jp (fieldNNN w)
  | 0x2 => .call (fieldNNN w)
  | 0x3 => .seImm (fieldX w) (fieldNN w)
  | 0x4 => .sneImm (fieldX w) (fieldNN w)
  | 0x5 => if nAllowed59 p w then .seReg (fieldX w) (fieldY w) else .unrecognized w
  | 0x6 => .ldImm (fieldX w) (fieldNN w)
  | 0x7 => .addImm (fieldX w) (fieldNN w)
  | 0x8 => decodeFamily8 p w
  | 0x9 => if nAllowed59 p w then .sneReg (fieldX w) (fieldY w) else .unrecognized w
  | 0xA => .ldI (fieldNNN w)
  | 0xB => .jpOff (fieldNNN w)
  | 0xC => .rnd (fieldX w) (fieldNN w)
  | 0xD => .drw (fieldX w) (fieldY w) (fieldN w)
  | 0xE => decodeFamilyE w
  | _ => decodeFamilyF w -- 0xF, the one value left of a 4-bit field

/-- Big-endian combination: the byte at the lower address is bits 15:8 (R51, R54). -/
def joinBytes (hi lo : Byte) : Word := hi ++ lo

/-- The byte of a word that stands at the lower address (R54). -/
def highByte (w : Word) : Byte := w.extractLsb' 8 8

/-- The byte of a word that stands at the higher address (R54). -/
def lowByte (w : Word) : Byte := w.extractLsb' 0 8

/-- Why a byte list has no instruction at its front. No word is refused (R83), so the only reason is that
there is no whole word. -/
inductive DecodeError where
  | truncated
  deriving DecidableEq, Repr

/-- Decode the instruction at the front of a byte list, and give the bytes after it (R70: one length). -/
def decodeBytes (p : Params) : List Byte → Except DecodeError (Instr × List Byte)
  | hi :: lo :: rest => .ok (decode p (joinBytes hi lo), rest)
  | [_] => .error .truncated
  | [] => .error .truncated

/-- The instruction the decoder reads from an opcode-table word (numbered with bit 0 the least significant
bit of the word; `nbits` of it given, the rest 0), under the table's own parameters `Params.table`. -/
def decodeTableWord (nbits w : Nat) : Option Instr :=
  let word : Word := BitVec.ofNat 16 (w % 2 ^ nbits)
  match decodeBytes Params.table [highByte word, lowByte word] with
  | .ok (i, _) => some i
  | .error _ => none

/-! ## Encoding (the layouts of R72; a bit no handler reads is written 0) -/

/-- A register number, or n, as the 4 bits of its field. -/
def nibble (r : Fin 16) : BitVec 4 := BitVec.ofFin r

/-- Format `NNN`. -/
def packNNN (f : BitVec 4) (nnn : Imm12) : Word := f ++ nnn

/-- Format `XNN`, and `XOP` with the operation in `nn`. -/
def packXNN (f : BitVec 4) (x : Reg) (nn : Byte) : Word := f ++ (nibble x ++ nn)

/-- Formats `XYN`, `XYS` with the operation in n, and `XY0` with n = 0. -/
def packXYN (f : BitVec 4) (x y : Reg) (n : Fin 16) : Word := f ++ (nibble x ++ (nibble y ++ nibble n))

/-- The word of an instruction, from the pattern column of R85. -/
def encode : Instr → Word
  | .cls => 0x00E0
  | .ret => 0x00EE
  | .jp nnn => packNNN 0x1 nnn
  | .call nnn => packNNN 0x2 nnn
  | .seImm x nn => packXNN 0x3 x nn
  | .sneImm x nn => packXNN 0x4 x nn
  | .seReg x y => packXYN 0x5 x y 0x0
  | .ldImm x nn => packXNN 0x6 x nn
  | .addImm x nn => packXNN 0x7 x nn
  | .ldReg x y => packXYN 0x8 x y 0x0
  | .orReg x y => packXYN 0x8 x y 0x1
  | .andReg x y => packXYN 0x8 x y 0x2
  | .xorReg x y => packXYN 0x8 x y 0x3
  | .addReg x y => packXYN 0x8 x y 0x4
  | .sub x y => packXYN 0x8 x y 0x5
  | .shr x y => packXYN 0x8 x y 0x6
  | .subn x y => packXYN 0x8 x y 0x7
  | .shl x y => packXYN 0x8 x y 0xE
  | .sneReg x y => packXYN 0x9 x y 0x0
  | .ldI nnn => packNNN 0xA nnn
  | .jpOff nnn => packNNN 0xB nnn
  | .rnd x nn => packXNN 0xC x nn
  | .drw x y n => packXYN 0xD x y n
  | .skp x => packXNN 0xE x 0x9E
  | .sknp x => packXNN 0xE x 0xA1
  | .ldVxDt x => packXNN 0xF x 0x07
  | .ldVxK x => packXNN 0xF x 0x0A
  | .ldDtVx x => packXNN 0xF x 0x15
  | .ldStVx x => packXNN 0xF x 0x18
  | .addIVx x => packXNN 0xF x 0x1E
  | .ldFVx x => packXNN 0xF x 0x29
  | .ldBVx x => packXNN 0xF x 0x33
  | .ldMemVx x => packXNN 0xF x 0x55
  | .ldVxMem x => packXNN 0xF x 0x65
  | .unrecognized w => w

/-- The two bytes of an instruction as memory holds them, lower address first (R54). -/
def encodeBytes (i : Instr) : List Byte := [highByte (encode i), lowByte (encode i)]

end Sys2Proof
end

