-- ==== Sys2Proof/Machine/Flags.lean ====
section
/-! DEFINITION. The flag computations: every value VF takes as a side effect (the table of 42_alu.md R144). -/

namespace Sys2Proof.Machine

/-- `bool(c)` (R12): the byte VF receives. -/
def flagByte (c : Bool) : Byte := if c then 1 else 0

/-- 8XY4: carry out of bit 7, from the exact sum (R137). -/
def carryFlag (a b : Byte) : Bool := decide (255 < a.toNat + b.toNat)

/-- 8XY5 and 8XY7: `V[x] > V[y]`, strictly, unsigned (R138, R139; 90_conflicts.md C2). -/
def greaterFlag (a b : Byte) : Bool := decide (b.toNat < a.toNat)

/-- 8XY6: the bit shifted out on the right (R140). -/
def lowBitFlag (a : Byte) : Bool := a.getLsbD 0

/-- 8XYE: the bit shifted out on the left (R141). -/
def highBitFlag (a : Byte) : Bool := a.getLsbD 7

/-- FX1E: the exact sum exceeds 0xFFF (R162). -/
def indexOverflowFlag (i : Word) (a : Byte) : Bool := decide (0x0FFF < i.toNat + a.toNat)

/-- FX1E: the stored sum, truncated to 12 bits (R162). -/
def indexSum (i : Word) (a : Byte) : Word := BitVec.ofNat 16 ((i.toNat + a.toNat) &&& 0x0FFF)

end Sys2Proof.Machine
end

