-- ==== Sys2Proof/Machine/State.lean ====
section
/-! DEFINITION. The state of the block (10_state.md R20 to R37) as plain data, and what the host holds at its
interface (40_engine.md R90 to R93). -/

namespace Sys2Proof.Machine

/-! ## What the interface carries -/

/-- The fatal conditions (R220). Raised by `State.raiseFatal`: LOAD raises `loadTooLarge`, the fetch of a CYCLE
`fetchOutOfBounds`, CALL `stackOverflow`, and DRW, LD_B_VX, LD_MEM_VX, LD_VX_MEM `dataOutOfBounds`. Each is latched in
the next state, as R222 says. -/
inductive FatalCode where
  | loadTooLarge
  | fetchOutOfBounds
  | stackOverflow
  | dataOutOfBounds
  deriving DecidableEq, Repr

/-- The non-fatal conditions (R221): RET with an empty stack, and SKP or SKNP of a key code of 16 or more. -/
inductive Diag where
  | stackUnderflow
  | keyOutOfRange
  deriving DecidableEq, Repr

/-- The inputs `inp` of CYCLE and EXEC (R92): the 16 key states and the last-pressed key, if one is reported. -/
structure Inputs where
  keys : Vector Bool 16
  last : Option Reg
  deriving DecidableEq, Repr

/-- No key down and none reported. -/
def Inputs.none : Inputs := { keys := Vector.replicate 16 false, last := Option.none }

/-- The operations of R90 the host calls on a machine (RESET is `State.create`: it makes one). `load b` has the
declared length of `b` (R252). -/
inductive HostOp where
  | load (b : List Byte)
  | cycle (inp : Inputs)
  | exec (w : Word) (q : Bool) (inp : Inputs)
  | tick
  | fbRead
  | redrawQuery
  | redrawAck
  | faultQuery
  deriving DecidableEq, Repr

/-- `fb[r][c]`: 32 rows of 64 cells, row 0 on top, column 0 on the left, `true` is lit (R29). -/
abbrev Bitmap := Vector (Vector Bool displayW) displayH

/-- Every cell off. -/
def Bitmap.blank : Bitmap := Vector.replicate displayH (Vector.replicate displayW false)

/-- What the block tells the host (R93): diagnostics, and the results of the query operations (R90). -/
inductive Output where
  | diag (d : Diag)
  | bitmap (fb : Bitmap)
  | redrawPending (b : Bool)
  | faultLatch (c : Option FatalCode)
  deriving DecidableEq, Repr

/-- Memory: the cells that differ from the reset image, addresses strictly rising (`Memory.wf`; log 8). -/
abbrev Memory := List Host.Cell

/-! ## The state -/

/-- The architectural state of R20, then the model's own fields (INVENTORY.md, State). -/
structure State where
  /-- `mem[0..4095]` (R21); read and written through `State.byteAt` and `State.storeByte`. -/
  mem : Memory
  /-- V0 to VF; VF is the flag output (R22, R23). -/
  V : Vector Byte 16
  /-- The index register (R24). -/
  I : Word
  /-- The address of the next instruction to fetch (R25). -/
  pc : Word
  /-- Return addresses; the live ones are 0 to sp - 1 (R26). -/
  stack : Vector Word stackDepth
  /-- The stack count, 0 to 16 (R26; the range is `State.Inv`). -/
  sp : Nat
  /-- The delay timer (R27). -/
  DT : Byte
  /-- The sound timer (R27). -/
  ST : Byte
  /-- The wait-for-key flag (R28). -/
  paused : Bool
  /-- The register the waiting FX0A will write (R28). -/
  target : Reg
  /-- The display bitmap (R29). -/
  fb : Bitmap
  /-- The redraw-pending flag (R30). -/
  redraw : Bool
  /-- The fatal-condition latch (R32). -/
  fault : Option FatalCode
  /-- The model's own: the parameters of R9, the same for the life of the machine (log 1). -/
  params : Params
  /-- The model's own: the inputs the host presents (R92; log 2). -/
  inp : Inputs
  /-- The model's own: the operations the host is going to call, next one first (R91; log 3). -/
  agenda : List HostOp
  /-- The model's own: how many random bytes have been drawn (R143; log 4). -/
  draws : Nat
  /-- The model's own: what has been told to the host, newest first (R93; log 5). -/
  out : List Output
  deriving DecidableEq, Repr

/-- Why `step` stops. -/
inductive Fault where
  /-- Raised by `step` alone, on a machine whose fatal latch is set, unless the host's next operation is a query:
  "A faulted machine takes no further step" (R101, R223). Safe: the machine does nothing there either. -/
  | halted (cause : FatalCode)
  deriving DecidableEq, Repr

/-- Why an instruction has no meaning. -/
inductive Refusal where
  /-- Raised by an arm of `exec` whose instruction has no meaning yet; no arm uses it. Safe. -/
  | notModelled (mnemonic : String)
  deriving DecidableEq, Repr

/-- RESET: a new machine with parameters `p`, every field at its value of R37 (R250). Memory lists nothing: an
unlisted cell reads as the font below 0x050 and as zero above (R31, R37). -/
def State.create (p : Params) : State :=
  { mem := []
    V := Vector.replicate 16 0
    I := 0
    pc := 0x200
    stack := Vector.replicate stackDepth 0
    sp := 0
    DT := 0
    ST := 0
    paused := false
    target := 0
    fb := Bitmap.blank
    redraw := false
    fault := none
    params := p
    inp := Inputs.none
    agenda := []
    draws := 0
    out := [] }

/-- The machine right after RESET, with the default parameters of R9. -/
def State.reset : State := State.create Params.default

end Sys2Proof.Machine
end

