-- ==== Sys2Proof/Machine/Ops.lean ====
section
/-! DEFINITION. The named operations over registers, memory, the stack, the program counter and the outputs,
and the one operation that raises a fatal condition. -/

namespace Sys2Proof.Machine

/-! ## Memory (20_memory.md) -/

/-- What the cell at `a` holds when memory lists nothing for it: the reset image, `FONT` at 0x000 to 0x04F and
zero above (R31, R37). -/
def resetByte (p : Params) (a : Nat) : Byte := if h : a < fontLen then p.font[a] else 0

/-- The cell at `a`, over the image `fill`. -/
def Memory.read (fill : Nat → Byte) : Memory → Nat → Byte
  | [], a => fill a
  | (b, v) :: m, a => if a = b then v else Memory.read fill m a

/-- Set the cell at `a`, keeping the canonical form: a cell equal to the image is not listed. -/
def Memory.write (fill : Nat → Byte) : Memory → Nat → Byte → Memory
  | [], a, v => if v = fill a then [] else [(a, v)]
  | (b, u) :: m, a, v =>
    if a < b then
      if v = fill a then (b, u) :: m else (a, v) :: (b, u) :: m
    else if a = b then
      if v = fill a then m else (a, v) :: m
    else (b, u) :: Memory.write fill m a v

/-- Every listed address is at least `lo`, the addresses rise strictly, none is outside 0x000 to 0xFFF, and no
entry equals the image. -/
def Memory.wfFrom (fill : Nat → Byte) : Nat → Memory → Bool
  | _, [] => true
  | lo, (a, v) :: m => decide (lo ≤ a) && decide (a < memSize) && v != fill a && Memory.wfFrom fill (a + 1) m

/-- The canonical form of memory (log 8). -/
def Memory.wf (fill : Nat → Byte) (m : Memory) : Bool := Memory.wfFrom fill 0 m

/-- `mem[a]`, for a in 0x000 to 0xFFF (R21, R57). -/
def State.byteAt (s : State) (a : Nat) : Byte := Memory.read (resetByte s.params) s.mem a

/-- `mem[a] <- v`, for a in 0x000 to 0xFFF (R53, R57). -/
def State.storeByte (a : Nat) (v : Byte) (s : State) : State :=
  { s with mem := Memory.write (resetByte s.params) s.mem a v }

/-- Store the bytes of a list from `base` up, in ascending order (R252). -/
def State.storeBytes (base : Nat) : List Byte → State → State
  | [], s => s
  | v :: vs, s => State.storeBytes (base + 1) vs (s.storeByte base v)

/-! ## Registers (10_state.md) -/

/-- `V[x]` (R22). -/
def State.getV (s : State) (x : Reg) : Byte := s.V[x]

/-- `V[x] <- v` (R22). -/
def State.setV (x : Reg) (v : Byte) (s : State) : State := { s with V := s.V.set x v }

/-- The register number of VF (R23). -/
abbrev flagReg : Reg := 0xF

/-- `VF <- v`, the flag output (R33). -/
def State.setVF (v : Byte) (s : State) : State := s.setV flagReg v

/-- `I <- v` (R24). -/
def State.setI (v : Word) (s : State) : State := { s with I := v }

/-- `DT <- v` (R27). -/
def State.setDT (v : Byte) (s : State) : State := { s with DT := v }

/-- `ST <- v` (R27). -/
def State.setST (v : Byte) (s : State) : State := { s with ST := v }

/-- The stack as one write: entry `k` set, the count set (R26). -/
def State.push (a : Word) (s : State) : State :=
  { s with stack := s.stack.setIfInBounds s.sp a, sp := s.sp + 1 }

/-- `stack[k]` (R26); log 21 says what an entry that does not exist gives. -/
def State.stackAt (s : State) (k : Nat) : Word := if h : k < stackDepth then s.stack[k] else 0

/-- `sp <- n` (R26). -/
def State.setSp (n : Nat) (s : State) : State := { s with sp := n }

/-- The display and its dirty flag: every change of `fb` marks redraw-pending (R30). -/
def State.setFb (fb : Bitmap) (s : State) : State := { s with fb := fb, redraw := true }

/-- Enter the wait-for-key state for register `x` (R28, R206). -/
def State.setPause (x : Reg) (s : State) : State := { s with paused := true, target := x }

/-- Leave the wait-for-key state; `target` keeps its value (R28, R207). -/
def State.endPause (s : State) : State := { s with paused := false }

/-- The renderer's acknowledgment (R30, R187). -/
def State.ackRedraw (s : State) : State := { s with redraw := false }

/-! ## The program counter (R25, R110) -/

/-- `pc <- a`. -/
def State.setPc (a : Word) (s : State) : State := { s with pc := a }

/-- Two bytes forward, modulo 2^16: the advance of the fetch (R94) and of a resumption (R207). -/
def State.advancePc (s : State) : State := s.setPc (s.pc + 2)

/-- `skip()` (R110). -/
def State.skip (s : State) : State := s.setPc (s.pc + 2)

/-- Skip the next word if `c`. -/
def State.skipIf (c : Bool) (s : State) : State := if c then s.skip else s

/-! ## Outputs, the random oracle, the parameters -/

/-- Tell the host something (R93). -/
def State.emit (o : Output) (s : State) : State := { s with out := o :: s.out }

/-- `diag(code)`: an advisory event (R221). -/
def State.diag (d : Diag) (s : State) : State := s.emit (.diag d)

/-- The byte `random_byte()` gives next (R143; a free value, log 4). -/
def State.nextRandom (s : State) : Byte := Config.randomByte s.draws

/-- One draw made (R143). -/
def State.countDraw (s : State) : State := { s with draws := s.draws + 1 }

/-- The inputs of the operation being performed (R92). -/
def State.setInp (inp : Inputs) (s : State) : State := { s with inp := inp }

/-- The quirk flag an operation executes with (R100). -/
def State.setQuirk (q : Bool) (s : State) : State := { s with params := { s.params with quirk := q } }

/-! ## Fatal conditions (60_exceptions.md) -/

/-- `raise Fatal(code)`: its only effect is `fault <- code` (R222). There is no handler, no vector, no saved context
and no return from it (R223, R226). -/
def State.raiseFatal (c : FatalCode) (s : State) : State := { s with fault := some c }

/-- The end of an operation that began in `s0`: if it raised a fatal condition, `s0` with the latch set, so that
nothing else it did happens (R222). -/
def commit (s0 : State) : Host.Outcome State Fault Refusal → Host.Outcome State Fault Refusal
  | .next t =>
    match t.fault with
    | some c => .next (s0.raiseFatal c)
    | none => .next t
  | .fault f => .fault f
  | .refused r => .refused r

/-- Apply a function to the next state. -/
def mapNext (f : State → State) : Host.Outcome State Fault Refusal → Host.Outcome State Fault Refusal
  | .next t => .next (f t)
  | .fault r => .fault r
  | .refused r => .refused r

/-- Do the `len` byte addresses from `base` up all name a cell (R52, R160). No address is formed when `len` is 0. -/
def dataInBounds (base len : Nat) : Bool := len == 0 || decide (base + len ≤ memSize)

/-- An instruction that accesses the `len` bytes from `base` up: all its addresses are checked before any access or
register write (R52, R160); then `k` says what it does. -/
def withData (base len : Nat) (s : State) (k : State → State) : Host.Outcome State Fault Refusal :=
  if dataInBounds base len then .next (k s) else .next (s.raiseFatal .dataOutOfBounds)

end Sys2Proof.Machine
end

