-- ==== Sys2Proof/Machine/Operands.lean ====
section
/-! DEFINITION. The operand forms: immediates widened, the register BNNN reads, data addresses, decimal digits,
key queries, and the register lists of FX55 and FX65. -/

namespace Sys2Proof.Machine

/-- `zext_16(nnn)` (R74). -/
def zextAddr (nnn : Imm12) : Word := nnn.zeroExtend 16

/-- The register of BNNN: `V[nnn[11:8]]` in quirk mode, V0 in legacy mode (R118). -/
def jpOffReg (q : Bool) (nnn : Imm12) : Reg := if q then (nnn.extractLsb' 8 4).toFin else 0

/-- The address in I as a number, the base of the data addresses `I + k`, which are exact (R52, R160). -/
def State.dataBase (s : State) : Nat := s.I.toNat

/-- `V[x] * 5`, exact: the address of a digit's glyph (R163). -/
def glyphAddr (v : Byte) : Word := BitVec.ofNat 16 (v.toNat * 5)

/-- The legacy increment of FX55 and FX65: `(I + x + 1) mod 2^16`; in quirk mode I is unchanged (R165, R166). -/
def transferredI (q : Bool) (i : Word) (x : Reg) : Word := if q then i else BitVec.ofNat 16 (i.toNat + x.val + 1)

/-- The hundreds digit (R164). -/
def hundreds (v : Byte) : Byte := BitVec.ofNat 8 (v.toNat / 100)

/-- The tens digit (R164). -/
def tens (v : Byte) : Byte := BitVec.ofNat 8 (v.toNat / 10 % 10)

/-- The units digit (R164). -/
def units (v : Byte) : Byte := BitVec.ofNat 8 (v.toNat % 10)

/-- Does `key_pressed` know this key code (R200). -/
def keyInRange (k : Byte) : Bool := decide (k.toNat < 16)

/-- `key_pressed(k)` (R200): the key's state for k in 0 to 15, else false. -/
def State.keyPressed (s : State) (k : Byte) : Bool := if h : k.toNat < 16 then s.inp.keys[k.toNat] else false

/-- The event of a key query: a diagnostic for a code of 16 or more, else none (R200, R221). -/
def State.keyQueried (k : Byte) (s : State) : State := if keyInRange k then s else s.diag .keyOutOfRange

/-- The code of a reported key as a register value (R207). -/
def keyByte (k : Reg) : Byte := BitVec.ofNat 8 k.val

/-- `V[k]` of a list position below 16 (R165, R166). -/
def State.regAt (s : State) (k : Nat) : Byte := if h : k < 16 then s.V[k] else 0

/-- Store V0 to V(count-1) at `base`, `base + 1`, …, in ascending order (R165). -/
def State.storeRegs (base : Nat) : Nat → State → State
  | 0, s => s
  | k + 1, s => (State.storeRegs base k s).storeByte (base + k) (s.regAt k)

/-- Load V0 to V(count-1) from `base`, `base + 1`, …, in ascending order (R166). -/
def State.loadRegs (base : Nat) : Nat → State → State
  | 0, s => s
  | k + 1, s =>
    let t := State.loadRegs base k s
    { t with V := t.V.setIfInBounds k (s.byteAt (base + k)) }

end Sys2Proof.Machine
end

