-- ==== Sys2Proof/Machine/Alu.lean ====
section
/-! DEFINITION. The register ALU (42_alu.md). Statements run in the order the rules list them, each seeing the
registers the one before left (D2; log 10). -/

namespace Sys2Proof.Machine

/-- `LD Vx, nn` (R131). -/
def execLdImm (x : Reg) (nn : Byte) (s : State) : Host.Outcome State Fault Refusal :=
  .next (s.setV x nn)

/-- `ADD Vx, nn` (R132): modulo 256, no flag. -/
def execAddImm (x : Reg) (nn : Byte) (s : State) : Host.Outcome State Fault Refusal :=
  .next (s.setV x (s.getV x + nn))

/-- `LD Vx, Vy` (R133). -/
def execLdReg (x y : Reg) (s : State) : Host.Outcome State Fault Refusal :=
  .next (s.setV x (s.getV y))

/-- `OR Vx, Vy` (R134), on a machine with `P_8XY1_OR`. -/
def execOrReg (x y : Reg) (s : State) : Host.Outcome State Fault Refusal :=
  .next (s.setV x (s.getV x ||| s.getV y))

/-- `AND Vx, Vy` (R135). -/
def execAndReg (x y : Reg) (s : State) : Host.Outcome State Fault Refusal :=
  .next (s.setV x (s.getV x &&& s.getV y))

/-- `XOR Vx, Vy` (R136). -/
def execXorReg (x y : Reg) (s : State) : Host.Outcome State Fault Refusal :=
  .next (s.setV x (s.getV x ^^^ s.getV y))

/-- `ADD Vx, Vy` (R137): the carry is written last. -/
def execAddReg (x y : Reg) (s : State) : Host.Outcome State Fault Refusal :=
  .next ((s.setV x (s.getV x + s.getV y)).setVF (flagByte (carryFlag (s.getV x) (s.getV y))))

/-- VF written first, then a result in `x` computed from the registers as that write left them: the order of 8XY5,
8XY7, 8XY6 and 8XYE (R138 to R141, D2). -/
def State.flagThenResult (c : Bool) (x : Reg) (result : State → Byte) (s : State) : State :=
  (s.setVF (flagByte c)).setV x (result (s.setVF (flagByte c)))

/-- `SUB Vx, Vy` (R138). -/
def execSub (x y : Reg) (s : State) : Host.Outcome State Fault Refusal :=
  .next (s.flagThenResult (greaterFlag (s.getV x) (s.getV y)) x fun t => t.getV x - t.getV y)

/-- `SUBN Vx, Vy` (R139). -/
def execSubn (x y : Reg) (s : State) : Host.Outcome State Fault Refusal :=
  .next (s.flagThenResult (greaterFlag (s.getV x) (s.getV y)) x fun t => t.getV y - t.getV x)

/-- The copy the shifts make first in quirk mode (R140, R141). -/
def State.quirkCopy (x y : Reg) (s : State) : State := if s.params.quirk then s.setV x (s.getV y) else s

/-- `SHR Vx, Vy` (R140). -/
def execShr (x y : Reg) (s : State) : Host.Outcome State Fault Refusal :=
  .next ((s.quirkCopy x y).flagThenResult (lowBitFlag ((s.quirkCopy x y).getV x)) x fun t => t.getV x >>> 1)

/-- `SHL Vx, Vy` (R141). -/
def execShl (x y : Reg) (s : State) : Host.Outcome State Fault Refusal :=
  .next ((s.quirkCopy x y).flagThenResult (highBitFlag ((s.quirkCopy x y).getV x)) x fun t => t.getV x <<< 1)

/-- `RND Vx, nn` (R142): a fresh free byte, masked. -/
def execRnd (x : Reg) (nn : Byte) (s : State) : Host.Outcome State Fault Refusal :=
  .next (s.countDraw.setV x (s.nextRandom &&& nn))

end Sys2Proof.Machine
end

