-- ==== Sys2Proof/Machine/Control.lean ====
section
/-! DEFINITION. Control transfer and the call stack (41_control_flow.md), and UNRECOGNIZED (40_engine.md R99).
Under CYCLE the fetch has advanced pc by 2 before a meaning runs (R94). -/

namespace Sys2Proof.Machine

/-- `RET` (R111): an empty stack gives a diagnostic and pc 0. -/
def execRet (s : State) : Host.Outcome State Fault Refusal :=
  if s.sp = 0 then .next ((s.diag .stackUnderflow).setPc 0)
  else .next ((s.setSp (s.sp - 1)).setPc (s.stackAt (s.sp - 1)))

/-- `JP nnn` (R112). -/
def execJp (nnn : Imm12) (s : State) : Host.Outcome State Fault Refusal :=
  .next (s.setPc (zextAddr nnn))

/-- `CALL nnn` (R113): a full stack is fatal, before anything is pushed. -/
def execCall (nnn : Imm12) (s : State) : Host.Outcome State Fault Refusal :=
  if s.sp < stackDepth then .next ((s.push s.pc).setPc (zextAddr nnn))
  else .next (s.raiseFatal .stackOverflow)

/-- `SE Vx, nn` (R114). -/
def execSeImm (x : Reg) (nn : Byte) (s : State) : Host.Outcome State Fault Refusal :=
  .next (s.skipIf (s.getV x == nn))

/-- `SNE Vx, nn` (R115). -/
def execSneImm (x : Reg) (nn : Byte) (s : State) : Host.Outcome State Fault Refusal :=
  .next (s.skipIf (s.getV x != nn))

/-- `SE Vx, Vy` (R116). -/
def execSeReg (x y : Reg) (s : State) : Host.Outcome State Fault Refusal :=
  .next (s.skipIf (s.getV x == s.getV y))

/-- `SNE Vx, Vy` (R117). -/
def execSneReg (x y : Reg) (s : State) : Host.Outcome State Fault Refusal :=
  .next (s.skipIf (s.getV x != s.getV y))

/-- `JP V0, nnn` (R118): the sum is stored untruncated. -/
def execJpOff (nnn : Imm12) (s : State) : Host.Outcome State Fault Refusal :=
  .next (s.setPc (zextAddr nnn + (s.getV (jpOffReg s.params.quirk nnn)).zeroExtend 16))

/-- `UNRECOGNIZED` (R99): changes no state and raises nothing. -/
def execUnrecognized (_w : Word) (s : State) : Host.Outcome State Fault Refusal :=
  .next s

end Sys2Proof.Machine
end

