-- ==== Sys2Proof/Machine/Display.lean ====
section
/-! DEFINITION. The sprite rasterizer and the display bitmap (44_display.md). -/

namespace Sys2Proof.Machine

/-- `fb[r][c]`; a cell that does not exist is off. -/
def Bitmap.cell (fb : Bitmap) (r c : Nat) : Bool :=
  if h : r < displayH ∧ c < displayW then (fb[r]'h.1)[c]'h.2 else false

/-- `fb[r][c] <- v`. -/
def Bitmap.setCell (r c : Nat) (v : Bool) (fb : Bitmap) : Bitmap :=
  if h : r < displayH ∧ c < displayW then fb.set r ((fb[r]'h.1).set c v h.2) h.1 else fb

/-- A blit under way: the bitmap so far, and whether a lit cell has been turned off (R183). -/
structure Blit where
  fb : Bitmap
  collision : Bool
  deriving DecidableEq, Repr

/-- The column of the origin: `vx mod 64` (R182, R184). -/
def originCol (vx : Byte) : Nat := vx.toNat % displayW

/-- The row of the origin: `vy mod 32` (R182, R184). -/
def originRow (vy : Byte) : Nat := vy.toNat % displayH

/-- `rows`: how many rows of a sprite of height n are drawn, and so read and bounds-checked (R182, D18). -/
def spriteRows (vy : Byte) (n : Fin 16) : Nat := min n.val (displayH - originRow vy)

/-- Bit `7 - c` of a row byte is the pixel at column offset c (R180). -/
def spriteBit (b : Byte) (c : Nat) : Bool := b.getLsbD (7 - c)

/-- The pixel at column offset c of a row byte `b` drawn at row `row` from column `x0`: past column 63 it is clipped; a
set bit turns the cell over, and turning a lit cell off is a collision (R182, R183). -/
def Blit.pixel (b : Byte) (row x0 c : Nat) (p : Blit) : Blit :=
  if x0 + c < displayW ∧ spriteBit b c = true then
    { fb := p.fb.setCell row (x0 + c) (!p.fb.cell row (x0 + c))
      collision := p.collision || p.fb.cell row (x0 + c) }
  else p

/-- The first `count` pixels of a row, from the left. -/
def Blit.row (b : Byte) (row x0 : Nat) : Nat → Blit → Blit
  | 0, p => p
  | c + 1, p => (Blit.row b row x0 c p).pixel b row x0 c

/-- The first `count` rows of a sprite whose row bytes `bytes` gives, from the top (R182). -/
def Blit.rows (bytes : Nat → Byte) (y0 x0 : Nat) : Nat → Blit → Blit
  | 0, p => p
  | r + 1, p => (Blit.rows bytes y0 x0 r p).row (bytes r) (y0 + r) x0 8

/-- `blit(vx, vy, base, N)` after its bounds check: the drawn rows are read from `base` up (R182). -/
def State.blit (s : State) (vx vy : Byte) (base : Nat) (n : Fin 16) : Blit :=
  Blit.rows (fun r => s.byteAt (base + r)) (originRow vy) (originCol vx) (spriteRows vy n)
    { fb := s.fb, collision := false }

/-- `clear()` (R181). -/
def State.clear (s : State) : State := s.setFb Bitmap.blank

/-- `CLS` (R185). -/
def execCls (s : State) : Host.Outcome State Fault Refusal :=
  .next s.clear

/-- `DRW Vx, Vy, n` (R186): VF takes the collision after the draw. -/
def execDrw (x y : Reg) (n : Fin 16) (s : State) : Host.Outcome State Fault Refusal :=
  withData s.dataBase (spriteRows (s.getV y) n) s fun s =>
    (s.setFb (s.blit (s.getV x) (s.getV y) s.dataBase n).fb).setVF
      (flagByte (s.blit (s.getV x) (s.getV y) s.dataBase n).collision)

end Sys2Proof.Machine
end

