-- ==== Sys2Proof/Machine/Index.lean ====
section
/-! DEFINITION. The index register and memory transfer (43_index_memory.md). -/

namespace Sys2Proof.Machine

/-- `LD I, nnn` (R161). -/
def execLdI (nnn : Imm12) (s : State) : Host.Outcome State Fault Refusal :=
  .next (s.setI (zextAddr nnn))

/-- `ADD I, Vx` (R162): I first, then VF, both from the exact sum of the old values. -/
def execAddIVx (x : Reg) (s : State) : Host.Outcome State Fault Refusal :=
  .next ((s.setI (indexSum s.I (s.getV x))).setVF (flagByte (indexOverflowFlag s.I (s.getV x))))

/-- `LD F, Vx` (R163). -/
def execLdFVx (x : Reg) (s : State) : Host.Outcome State Fault Refusal :=
  .next (s.setI (glyphAddr (s.getV x)))

/-- The three stores of FX33 at `base`, `base + 1`, `base + 2` (R164). -/
def State.storeDigits (base : Nat) (v : Byte) (s : State) : State :=
  ((s.storeByte base (hundreds v)).storeByte (base + 1) (tens v)).storeByte (base + 2) (units v)

/-- `LD B, Vx` (R164). -/
def execLdBVx (x : Reg) (s : State) : Host.Outcome State Fault Refusal :=
  withData s.dataBase 3 s fun s => s.storeDigits s.dataBase (s.getV x)

/-- `LD [I], Vx` (R165). -/
def execLdMemVx (x : Reg) (s : State) : Host.Outcome State Fault Refusal :=
  withData s.dataBase (x.val + 1) s fun s =>
    (s.storeRegs s.dataBase (x.val + 1)).setI (transferredI s.params.quirk s.I x)

/-- `LD Vx, [I]` (R166). -/
def execLdVxMem (x : Reg) (s : State) : Host.Outcome State Fault Refusal :=
  withData s.dataBase (x.val + 1) s fun s =>
    (s.loadRegs s.dataBase (x.val + 1)).setI (transferredI s.params.quirk s.I x)

end Sys2Proof.Machine
end

