-- ==== Sys2Proof/Machine/Timers.lean ====
section
/-! DEFINITION. Timers, keys and wait-for-key (45_timers_input.md). -/

namespace Sys2Proof.Machine

/-- `SKP Vx` (R201). -/
def execSkp (x : Reg) (s : State) : Host.Outcome State Fault Refusal :=
  .next ((s.keyQueried (s.getV x)).skipIf (s.keyPressed (s.getV x)))

/-- `SKNP Vx` (R202). -/
def execSknp (x : Reg) (s : State) : Host.Outcome State Fault Refusal :=
  .next ((s.keyQueried (s.getV x)).skipIf (!s.keyPressed (s.getV x)))

/-- `LD Vx, DT` (R203). -/
def execLdVxDt (x : Reg) (s : State) : Host.Outcome State Fault Refusal :=
  .next (s.setV x s.DT)

/-- `LD DT, Vx` (R204). -/
def execLdDtVx (x : Reg) (s : State) : Host.Outcome State Fault Refusal :=
  .next (s.setDT (s.getV x))

/-- `LD ST, Vx` (R205). -/
def execLdStVx (x : Reg) (s : State) : Host.Outcome State Fault Refusal :=
  .next (s.setST (s.getV x))

/-- `LD Vx, K` (R206): pause, remember x, and rewind pc by 2. -/
def execLdVxK (x : Reg) (s : State) : Host.Outcome State Fault Refusal :=
  .next ((s.setPause x).setPc (s.pc - 2))

/-- `resume_check` (R207): a reported key ends the wait; without one nothing changes. -/
def State.resumeCheck (s : State) : State :=
  match s.inp.last with
  | some k => (s.setV s.target (keyByte k)).endPause.advancePc
  | none => s

/-- One timer, one tick: down by 1, floored at 0 (R208). -/
def timerTick (t : Byte) : Byte := if t = 0 then 0 else t - 1

end Sys2Proof.Machine
end

