-- ==== Sys2Proof/Machine/Engine.lean ====
section
/-! DEFINITION. The operations of the block (40_engine.md R90): CYCLE and EXEC with fetch, TICK, LOAD, the queries
and the acknowledgment. -/

namespace Sys2Proof.Machine

/-- `Fetch16(pc)` (R51): the two bytes at pc, big-endian; none where a byte address is outside memory. -/
def State.fetch16 (s : State) : Option Word :=
  if s.pc.toNat ≤ 0xFFE then some (joinBytes (s.byteAt s.pc.toNat) (s.byteAt (s.pc.toNat + 1))) else none

/-- The pass of an unpaused CYCLE (R94 to R97): fetch, advance pc, decode, execute with the parameter `QUIRK`. -/
def State.pass (s : State) : Host.Outcome State Fault Refusal :=
  match s.fetch16 with
  | none => .next (s.raiseFatal .fetchOutOfBounds)
  | some w => commit s (exec (decode s.params w) s.advancePc)

/-- CYCLE on the inputs the state holds (R97, R224). -/
def State.cycleHeld (s : State) : Host.Outcome State Fault Refusal :=
  match s.fault with
  | some _ => .next s
  | none => if s.paused then .next s.resumeCheck else s.pass

/-- `CYCLE(inp)` (R97). -/
def opCycle (inp : Inputs) (s : State) : Host.Outcome State Fault Refusal :=
  match s.fault with
  | some _ => .next s
  | none => (s.setInp inp).cycleHeld

/-- `EXEC(w, q, inp)` (R98): no fetch, no pc advance, no pause check; `q` is the quirk flag of this operation only
(R100). -/
def opExec (w : Word) (q : Bool) (inp : Inputs) (s : State) : Host.Outcome State Fault Refusal :=
  match s.fault with
  | some _ => .next s
  | none =>
    commit (s.setInp inp) (mapNext (State.setQuirk s.params.quirk) (exec (decode s.params w) ((s.setInp inp).setQuirk q)))

/-- `TICK()` (R208): the timers are frozen while paused. -/
def opTick (s : State) : State :=
  match s.fault with
  | some _ => s
  | none => if s.paused then s else (s.setDT (timerTick s.DT)).setST (timerTick s.ST)

/-- `LOAD(b, len)` with len the length of b (R252). -/
def opLoad (b : List Byte) (s : State) : State :=
  match s.fault with
  | some _ => s
  | none => if maxProgram < b.length then s.raiseFatal .loadTooLarge else s.storeBytes programBase b

/-- `REDRAW_ACK()` (R187). -/
def opRedrawAck (s : State) : State :=
  match s.fault with
  | some _ => s
  | none => s.ackRedraw

/-- `FB_READ()`: a copy of the bitmap (R187). -/
def opFbRead (s : State) : Bitmap := s.fb

/-- `REDRAW_QUERY()` (R187). -/
def opRedrawQuery (s : State) : Bool := s.redraw

/-- `FAULT_QUERY()` (R222). -/
def opFaultQuery (s : State) : Option FatalCode := s.fault

/-- The spec's numeric code of a cause (R220). -/
def FatalCode.number : FatalCode → Nat
  | .loadTooLarge => 1
  | .fetchOutOfBounds => 2
  | .stackOverflow => 3
  | .dataOutOfBounds => 4

/-- The queries, which answer even after a fatal condition (R101). -/
def HostOp.isQuery : HostOp → Bool
  | .load _ => false
  | .cycle _ => false
  | .exec _ _ _ => false
  | .tick => false
  | .fbRead => true
  | .redrawQuery => true
  | .redrawAck => false
  | .faultQuery => true

/-- Perform one operation of the host (R90); the answer of a query goes to `out`. -/
def perform (op : HostOp) (s : State) : Host.Outcome State Fault Refusal :=
  match op with
  | .load b => .next (opLoad b s)
  | .cycle inp => opCycle inp s
  | .exec w q inp => opExec w q inp s
  | .tick => .next (opTick s)
  | .fbRead => .next (s.emit (.bitmap (opFbRead s)))
  | .redrawQuery => .next (s.emit (.redrawPending (opRedrawQuery s)))
  | .redrawAck => .next (opRedrawAck s)
  | .faultQuery => .next (s.emit (.faultLatch (opFaultQuery s)))

/-- The host's next operation: the head of the agenda, or a CYCLE on the inputs held when the agenda is empty
(log 3). -/
def State.nextOp (s : State) : HostOp :=
  match s.agenda with
  | [] => .cycle s.inp
  | op :: _ => op

/-- The operation is called: it leaves the agenda. -/
def State.popAgenda (s : State) : State := { s with agenda := s.agenda.tail }

/-- One operation of the host. After a fatal condition only a query takes a step (R101, R223; log 6). -/
def hostStep (s : State) : Host.Outcome State Fault Refusal :=
  match s.fault with
  | some c => if s.nextOp.isQuery then perform s.nextOp s.popAgenda else .fault (.halted c)
  | none => perform s.nextOp s.popAgenda

/-! ## Placing an instruction where the next step fetches it -/

/-- Is the word 8XY1, an instruction only on a machine with `P_8XY1_OR` (R79). -/
def isOrWord (w : Word) : Bool := fieldF w == 0x8 && fieldN w == 0x1

/-- A state whose next step is an unpaused CYCLE that can fetch: no operation of the host comes first, nothing is
latched, and pc names two cells. On the reset state this changes nothing. -/
def State.readyToFetch (s : State) : State :=
  { s with agenda := [], fault := none, paused := false, pc := if s.pc.toNat ≤ 0xFFE then s.pc else 0x200 }

/-- Store a word at pc, its high byte first (R54). -/
def State.storeWordAtPc (w : Word) (s : State) : State :=
  (s.storeByte s.pc.toNat (highByte w)).storeByte (s.pc.toNat + 1) (lowByte w)

/-- The machine on which `w` is the instruction of its table row: 8XY1 needs `P_8XY1_OR`; no other word changes a
parameter (log 20). -/
def State.allowOrWord (w : Word) (s : State) : State :=
  if isOrWord w then { s with params := { s.params with or8xy1 := true } } else s

/-- `s` with the word `w` (its low `nbits` bits; the rest 0) stored where the next step fetches it (log 19). -/
def placeWord (s : State) (nbits w : Nat) : State :=
  let word : Word := BitVec.ofNat 16 (w % 2 ^ nbits)
  (s.readyToFetch.allowOrWord word).storeWordAtPc word

end Sys2Proof.Machine
end

