-- ==== Sys2Proof/Machine/Step.lean ====
section
/-! DEFINITION. One step of the machine: the host's next operation (40_engine.md R91, R97, R101; log 3). -/

namespace Sys2Proof.Machine

/-- The next operation of the host performed whole: with an empty agenda, one CYCLE. -/
def step (s : State) : Host.Outcome State Fault Refusal := hostStep s

/-- `s` with an instruction of the opcode table stored where the next step fetches it. -/
def State.withFetchWord (s : State) (nbits w : Nat) : State := placeWord s nbits w

end Sys2Proof.Machine
end

