-- ==== Sys2Proof/Safety.lean ====
section
/-! DEFINITION. The terms the statements use: the invariant of the state, the end of a run, what a change of
state leaves alone, and words written out as four hex digits. -/

namespace Sys2Proof.Machine

/-- The invariant of the model. Of its three clauses R36 gives only the range of sp (R26). That memory is canonical is the
model's own (log 8, DESIGN CHOICE); that I is at most 0x1000 is R24 with the corner case of R162, which the spec marks as
derived from R163, R165 and R166. The other ranges of R36 are in the types. -/
structure State.Inv (s : State) : Prop where
  /-- No cell outside 0x000 to 0xFFF, each listed once, none equal to the reset image (log 8). -/
  mem_wf : Memory.wf (resetByte s.params) s.mem = true
  /-- "pointer is always in [0,16]" (R26, R36). -/
  sp_le : s.sp ≤ 16
  /-- The highest value a program can leave in I (R162's corner case, derived). -/
  index_le : s.I.toNat ≤ 0x1000

/-- The word in memory at address `a`, big-endian (R54). -/
def State.wordAt (s : State) (a : Nat) : Word := BitVec.ofNat 16 (0x100 * (s.byteAt a).toNat + (s.byteAt (a + 1)).toNat)

/-- A done state (R102): not faulted, not paused, and a jump to itself at pc. R102 lets pc be up to 0xFFF; this asks for at
most 0xFFE, since at 0xFFF there is no whole word and a CYCLE is fatal by R51 (log 21, DEDUCED). -/
def State.done (s : State) : Prop :=
  s.fault = none ∧ s.paused = false ∧ s.pc.toNat ≤ 0xFFE ∧ s.wordAt s.pc.toNat = BitVec.ofNat 16 (0x1000 + s.pc.toNat)

/-- A failed state (R102, R223). -/
def State.failed (s : State) : Prop := s.fault ≠ none

/-- A safe run of `k` steps: none of them stops, and the state it ends in has not failed. -/
def SafeRun (s : State) (k : Nat) : Prop := ∃ t, Sys2Proof.core.run k s = .next t ∧ ¬State.failed t

/-- The state `s` is about to run one unpaused CYCLE on its own inputs: nothing latched, no wait, the host calls
nothing else first (R97). -/
structure State.Running (s : State) : Prop where
  no_fault : s.fault = none
  not_paused : s.paused = false
  no_agenda : s.agenda = []

/-- The host's next operation is a CYCLE on the inputs `inp`, and `rest` is what it calls after it: the next on the agenda,
or, when the agenda is empty, the default one on the inputs held (R91, R92; logs 2 and 3). -/
def State.CallsCycle (s : State) (inp : Inputs) (rest : List HostOp) : Prop :=
  (s.agenda = [] ∧ s.inp = inp ∧ rest = []) ∨ s.agenda = .cycle inp :: rest

/-- The inputs held once an operation has been performed: those a CYCLE or an EXEC brings (R92), and for every other
operation the ones `held` before it (log 2). -/
def HostOp.inputsAfter (held : Inputs) : HostOp → Inputs
  | .cycle inp => inp
  | .exec _ _ inp => inp
  | .load _ => held
  | .tick => held
  | .fbRead => held
  | .redrawQuery => held
  | .redrawAck => held
  | .faultQuery => held

/-- The parts of the state other than V and memory. -/
inductive Part where
  | I | pc | stack | sp | DT | ST | paused | target | fb | redraw | fault | params | inp | agenda | draws | out
  deriving DecidableEq, Repr

/-- From `s` to `t` nothing changes but the registers `regs`, the parts `parts`, and the cells that `cells` names:
every other register, every other part, and every other byte of memory reads as before. -/
structure ChangesOnly (regs : List Reg) (parts : List Part) (cells : Nat → Prop) (s t : State) : Prop where
  regs_kept : ∀ r, r ∉ regs → t.getV r = s.getV r
  cells_kept : ∀ a, ¬cells a → t.byteAt a = s.byteAt a
  I_kept : Part.I ∉ parts → t.I = s.I
  pc_kept : Part.pc ∉ parts → t.pc = s.pc
  stack_kept : Part.stack ∉ parts → t.stack = s.stack
  sp_kept : Part.sp ∉ parts → t.sp = s.sp
  DT_kept : Part.DT ∉ parts → t.DT = s.DT
  ST_kept : Part.ST ∉ parts → t.ST = s.ST
  paused_kept : Part.paused ∉ parts → t.paused = s.paused
  target_kept : Part.target ∉ parts → t.target = s.target
  fb_kept : Part.fb ∉ parts → t.fb = s.fb
  redraw_kept : Part.redraw ∉ parts → t.redraw = s.redraw
  fault_kept : Part.fault ∉ parts → t.fault = s.fault
  params_kept : Part.params ∉ parts → t.params = s.params
  inp_kept : Part.inp ∉ parts → t.inp = s.inp
  agenda_kept : Part.agenda ∉ parts → t.agenda = s.agenda
  draws_kept : Part.draws ∉ parts → t.draws = s.draws
  out_kept : Part.out ∉ parts → t.out = s.out

/-- No cell of memory. -/
def noCell : Nat → Prop := fun _ => False

/-- The `len` cells from `base` up. -/
def cellsFrom (base len : Nat) : Nat → Prop := fun a => base ≤ a ∧ a < base + len

/-- The word of four hex digits `abcd`, each 0 to 15: bits 15:12, 11:8, 7:4, 3:0 (R71). -/
def hexWord (a b c d : Nat) : Word := BitVec.ofNat 16 (0x1000 * a + 0x100 * b + 0x10 * c + d)

/-- The word `abNN` of two hex digits and an 8-bit immediate (R71). -/
def hexWordNN (a b : Nat) (nn : Byte) : Word := BitVec.ofNat 16 (0x1000 * a + 0x100 * b + nn.toNat)

/-- The word `aNNN` of one hex digit and a 12-bit immediate (R71). -/
def hexWordNNN (a : Nat) (nnn : Imm12) : Word := BitVec.ofNat 16 (0x1000 * a + nnn.toNat)

/-- What a register holds, as a number, once a flag value `f` has been written to VF (D2). -/
def State.seenAfterFlag (s : State) (f : Nat) (r : Reg) : Nat := if r = 0xF then f else (s.getV r).toNat

/-- The sprite of `n` rows at I, drawn from the wrapped origin of `vx`, `vy`, has a set bit that lands on the cell
(r, c) of the display: rows past 31 and columns past 63 are dropped, bit 7 is leftmost (R180, R182, R184). -/
def State.SpriteSets (s : State) (vx vy : Byte) (n r c : Nat) : Prop :=
  (vy.toNat % 32 ≤ r ∧ r < vy.toNat % 32 + n ∧ r < 32) ∧ (vx.toNat % 64 ≤ c ∧ c < vx.toNat % 64 + 8 ∧ c < 64) ∧
    (s.byteAt (s.I.toNat + (r - vy.toNat % 32))).toNat / 2 ^ (7 - (c - vx.toNat % 64)) % 2 = 1

/-- Every row of that sprite that is drawn lies in memory (R182, D18): there are min(n, 32 - y0) of them. -/
def State.SpriteInMemory (s : State) (vy : Byte) (n : Nat) : Prop :=
  min n (32 - vy.toNat % 32) = 0 ∨ s.I.toNat + min n (32 - vy.toNat % 32) ≤ 0x1000

/-- The word `w` is the instruction `i` whatever the parameters of the machine. -/
def IsWordOf (w : Word) (i : Instr) : Prop := ∀ p, decode p w = i

end Sys2Proof.Machine
end

