-- ==== Sys2Proof/Certificates/Slice0/Obligations.lean ====
section
/-! DEFINITION. The statements for the provers. A statement about an instruction says its word (`IsWordOf`), that
`exec` answers a next state, what that state holds, and by `ChangesOnly` what it leaves alone. "D<n>" is a decision
of spec/92_eei_decisions.md, "log <n>" an entry of notes/assumptions. -/

open Sys2Proof Sys2Proof.Machine

/-! ## Control transfer and the call stack -/

/-- R112: `pc <- zext_16(nnn)`, and nothing else changes. -/
def Obligations.JpSetsPcToNnn : Prop :=
  ∀ (s : State) (nnn : Imm12), IsWordOf (hexWordNNN 0x1 nnn) (.jp nnn) ∧
    ∃ t, exec (.jp nnn) s = .next t ∧ t.pc.toNat = nnn.toNat ∧ ChangesOnly [] [.pc] noCell s t

/-- R113: with room on the stack CALL pushes pc and jumps; with 16 entries it is fatal before anything is pushed, and
only the latch changes (D14). -/
def Obligations.CallPushesPcOrOverflows : Prop :=
  ∀ (s : State) (nnn : Imm12), IsWordOf (hexWordNNN 0x2 nnn) (.call nnn) ∧
    (s.sp < 16 → ∃ t, exec (.call nnn) s = .next t ∧ t.pc.toNat = nnn.toNat ∧ t.sp = s.sp + 1 ∧
      (∀ k, k < 16 → t.stackAt k = if k = s.sp then s.pc else s.stackAt k) ∧
      ChangesOnly [] [.pc, .sp, .stack] noCell s t) ∧
    (s.sp = 16 → exec (.call nnn) s = .next { s with fault := some .stackOverflow })

/-- R111: RET pops the most recent entry; on an empty stack it tells the host (the event is kept in `out`, log 5), sets
pc to 0 and leaves sp at 0. The popped entry is not cleared. -/
def Obligations.RetPopsOrUnderflows : Prop :=
  ∀ (s : State), IsWordOf (hexWord 0 0 0xE 0xE) .ret ∧
    (0 < s.sp → s.sp ≤ 16 → ∃ t, exec .ret s = .next t ∧ t.pc = s.stackAt (s.sp - 1) ∧ t.sp = s.sp - 1 ∧
      ChangesOnly [] [.pc, .sp] noCell s t) ∧
    (s.sp = 0 → ∃ t, exec .ret s = .next t ∧ t.pc.toNat = 0 ∧ t.out = .diag .stackUnderflow :: s.out ∧
      ChangesOnly [] [.pc, .out] noCell s t)

/-- R114 and R115: SE and SNE with an immediate move pc by 2, or not at all, and change nothing else. -/
def Obligations.ImmediateSkips : Prop :=
  ∀ (s : State) (x : Reg) (nn : Byte),
    IsWordOf (hexWordNN 0x3 x nn) (.seImm x nn) ∧ IsWordOf (hexWordNN 0x4 x nn) (.sneImm x nn) ∧
    (∃ t, exec (.seImm x nn) s = .next t ∧ t.pc = (if s.getV x = nn then s.pc + 2 else s.pc) ∧
      ChangesOnly [] [.pc] noCell s t) ∧
    (∃ t, exec (.sneImm x nn) s = .next t ∧ t.pc = (if s.getV x = nn then s.pc else s.pc + 2) ∧
      ChangesOnly [] [.pc] noCell s t)

/-- SE and SNE of two registers (41_control_flow.md, section 2). Which words they are depends on `P_STRICT_59` (D10):
with n = 0 always, with another n only if it is false. -/
def Obligations.RegisterSkips : Prop :=
  ∀ (s : State) (x y : Reg),
    (∃ t, exec (.seReg x y) s = .next t ∧ t.pc = (if s.getV x = s.getV y then s.pc + 2 else s.pc) ∧
      ChangesOnly [] [.pc] noCell s t) ∧
    (∃ t, exec (.sneReg x y) s = .next t ∧ t.pc = (if s.getV x = s.getV y then s.pc else s.pc + 2) ∧
      ChangesOnly [] [.pc] noCell s t) ∧
    (∀ (p : Params) (n : Fin 16),
      decode p (hexWord 0x5 x y n) =
        (if p.strict59 = true ∧ n ≠ 0 then .unrecognized (hexWord 0x5 x y n) else .seReg x y) ∧
      decode p (hexWord 0x9 x y n) =
        (if p.strict59 = true ∧ n ≠ 0 then .unrecognized (hexWord 0x9 x y n) else .sneReg x y))

/-- BNNN: pc is nnn plus V0, or in quirk mode plus the register named by nnn[11:8]; the sum is not truncated (D3). -/
def Obligations.JpOffAddsRegister : Prop :=
  ∀ (s : State) (nnn : Imm12), IsWordOf (hexWordNNN 0xB nnn) (.jpOff nnn) ∧
    ∃ t, exec (.jpOff nnn) s = .next t ∧
      (s.params.quirk = false → t.pc.toNat = nnn.toNat + (s.getV 0).toNat) ∧
      (∀ x : Reg, s.params.quirk = true → x.val = nnn.toNat / 0x100 → t.pc.toNat = nnn.toNat + (s.getV x).toNat) ∧
      ChangesOnly [] [.pc] noCell s t

/-- R99: an unrecognized word changes no state, raises nothing and emits nothing; a CYCLE that fetches one, the host's
default one or the next on its agenda, on the inputs it brings (logs 2 and 3, DESIGN CHOICE), only advances pc. -/
def Obligations.UnrecognizedIsNoOp : Prop :=
  (∀ (s : State) (w : Word), exec (.unrecognized w) s = .next s) ∧
    ∀ (s : State) (w : Word) (inp : Inputs) (rest : List HostOp), s.fault = none → s.paused = false →
      s.CallsCycle inp rest → s.pc.toNat ≤ 0xFFE → s.wordAt s.pc.toNat = w → decode s.params w = .unrecognized w →
      step s = .next { s with pc := s.pc + 2, inp := inp, agenda := rest }

/-! ## The register ALU -/

/-- R131: `V[x] <- nn`, no flag; x = F writes VF like any register. -/
def Obligations.LdImmWritesRegister : Prop :=
  ∀ (s : State) (x : Reg) (nn : Byte), IsWordOf (hexWordNN 0x6 x nn) (.ldImm x nn) ∧
    ∃ t, exec (.ldImm x nn) s = .next t ∧ t.getV x = nn ∧ ChangesOnly [x] [] noCell s t

/-- R132: `V[x] <- (V[x] + nn) mod 256`, and VF is unchanged unless x = F. -/
def Obligations.AddImmWrapsWithoutFlag : Prop :=
  ∀ (s : State) (x : Reg) (nn : Byte), IsWordOf (hexWordNN 0x7 x nn) (.addImm x nn) ∧
    ∃ t, exec (.addImm x nn) s = .next t ∧ (t.getV x).toNat = ((s.getV x).toNat + nn.toNat) % 256 ∧
      ChangesOnly [x] [] noCell s t

/-- R133, R135, R136: the copy, the AND and the XOR write V[x] and no flag. -/
def Obligations.CopyAndXorWriteRegister : Prop :=
  ∀ (s : State) (x y : Reg),
    IsWordOf (hexWord 0x8 x y 0x0) (.ldReg x y) ∧ IsWordOf (hexWord 0x8 x y 0x2) (.andReg x y) ∧
    IsWordOf (hexWord 0x8 x y 0x3) (.xorReg x y) ∧
    (∃ t, exec (.ldReg x y) s = .next t ∧ t.getV x = s.getV y ∧ ChangesOnly [x] [] noCell s t) ∧
    (∃ t, exec (.andReg x y) s = .next t ∧
      (∀ k, (t.getV x).getLsbD k = ((s.getV x).getLsbD k && (s.getV y).getLsbD k)) ∧ ChangesOnly [x] [] noCell s t) ∧
    (∃ t, exec (.xorReg x y) s = .next t ∧
      (∀ k, (t.getV x).getLsbD k = ((s.getV x).getLsbD k ^^ (s.getV y).getLsbD k)) ∧ ChangesOnly [x] [] noCell s t)

/-- 8XY1 (D11, log 20): on a machine with `P_8XY1_OR` it is OR, which writes V[x] and no flag; on any other it is an
unrecognized word. -/
def Obligations.OrIsGivenByItsParameter : Prop :=
  (∀ (p : Params) (x y : Reg), decode p (hexWord 0x8 x y 0x1) =
    if p.or8xy1 then .orReg x y else .unrecognized (hexWord 0x8 x y 0x1)) ∧
  ∀ (s : State) (x y : Reg), ∃ t, exec (.orReg x y) s = .next t ∧
    (∀ k, (t.getV x).getLsbD k = ((s.getV x).getLsbD k || (s.getV y).getLsbD k)) ∧ ChangesOnly [x] [] noCell s t

/-- 8XY4: V[x] takes the sum modulo 256 and VF the carry; when x = F the carry is what stays (D2, log 10). -/
def Obligations.AddRegCarries : Prop :=
  ∀ (s : State) (x y : Reg), IsWordOf (hexWord 0x8 x y 0x4) (.addReg x y) ∧
    ∃ t, exec (.addReg x y) s = .next t ∧
      (t.getV 0xF).toNat = (if 255 < (s.getV x).toNat + (s.getV y).toNat then 1 else 0) ∧
      (x ≠ 0xF → (t.getV x).toNat = ((s.getV x).toNat + (s.getV y).toNat) % 256) ∧
      ChangesOnly [x, 0xF] [] noCell s t

/-- 8XY5: VF is 1 exactly when V[x] > V[y] before; then V[x] takes the difference of the registers as that write left
them (D2, log 10; `seenAfterFlag`). -/
def Obligations.SubComparesThenSubtracts : Prop :=
  ∀ (s : State) (x y : Reg), IsWordOf (hexWord 0x8 x y 0x5) (.sub x y) ∧
    ∃ t, exec (.sub x y) s = .next t ∧ ∀ f : Nat, f = (if (s.getV y).toNat < (s.getV x).toNat then 1 else 0) →
      (t.getV x).toNat = (s.seenAfterFlag f x + 256 - s.seenAfterFlag f y) % 256 ∧
      (x ≠ 0xF → (t.getV 0xF).toNat = f) ∧ ChangesOnly [x, 0xF] [] noCell s t

/-- 8XY7: VF is 1 exactly when V[x] > V[y] before, which is when V[y] - V[x] borrows; then V[x] takes V[y] - V[x] of the
registers as that write left them (D2, log 10). -/
def Obligations.SubnComparesThenSubtracts : Prop :=
  ∀ (s : State) (x y : Reg), IsWordOf (hexWord 0x8 x y 0x7) (.subn x y) ∧
    ∃ t, exec (.subn x y) s = .next t ∧ ∀ f : Nat, f = (if (s.getV y).toNat < (s.getV x).toNat then 1 else 0) →
      (t.getV x).toNat = (s.seenAfterFlag f y + 256 - s.seenAfterFlag f x) % 256 ∧
      (x ≠ 0xF → (t.getV 0xF).toNat = f) ∧ ChangesOnly [x, 0xF] [] noCell s t

/-- 8XY6: the shifted byte is V[x], or V[y] in quirk mode; V[x] takes its half and VF its low bit, and when x = F it ends
0 (D2, log 10). -/
def Obligations.ShrShiftsRight : Prop :=
  ∀ (s : State) (x y : Reg), IsWordOf (hexWord 0x8 x y 0x6) (.shr x y) ∧
    ∃ t, exec (.shr x y) s = .next t ∧
      ∀ b : Nat, b = (if s.params.quirk then (s.getV y).toNat else (s.getV x).toNat) →
        (x ≠ 0xF → (t.getV x).toNat = b / 2 ∧ (t.getV 0xF).toNat = b % 2) ∧ (x = 0xF → (t.getV 0xF).toNat = 0) ∧
        ChangesOnly [x, 0xF] [] noCell s t

/-- 8XYE: V[x] takes the double modulo 256 of V[x], or of V[y] in quirk mode, and VF its bit 7; when x = F it ends 0 or 2
(D2, log 10). -/
def Obligations.ShlShiftsLeft : Prop :=
  ∀ (s : State) (x y : Reg), IsWordOf (hexWord 0x8 x y 0xE) (.shl x y) ∧
    ∃ t, exec (.shl x y) s = .next t ∧
      ∀ b : Nat, b = (if s.params.quirk then (s.getV y).toNat else (s.getV x).toNat) →
        (x ≠ 0xF → (t.getV x).toNat = b * 2 % 256 ∧ (t.getV 0xF).toNat = b / 128) ∧
        (x = 0xF → (t.getV 0xF).toNat = 2 * (b / 128)) ∧ ChangesOnly [x, 0xF] [] noCell s t

/-- CXNN: V[x] takes the next free byte (D15, log 4) ANDed with nn, so every bit outside nn is 0. -/
def Obligations.RndMasksAFreeByte : Prop :=
  ∀ (s : State) (x : Reg) (nn : Byte), IsWordOf (hexWordNN 0xC x nn) (.rnd x nn) ∧
    ∃ t, exec (.rnd x nn) s = .next t ∧
      (∀ k, (t.getV x).getLsbD k = ((Config.randomByte s.draws).getLsbD k && nn.getLsbD k)) ∧
      (∀ k, nn.getLsbD k = false → (t.getV x).getLsbD k = false) ∧ t.draws = s.draws + 1 ∧
      ChangesOnly [x] [.draws] noCell s t

/-! ## The index register and memory transfer -/

/-- R161 and R163: `I <- zext_16(nnn)`; `I <- V[x] * 5`, exact, with no mask of V[x]. -/
def Obligations.IndexLoads : Prop :=
  ∀ (s : State) (nnn : Imm12) (x : Reg),
    IsWordOf (hexWordNNN 0xA nnn) (.ldI nnn) ∧ IsWordOf (hexWord 0xF x 0x2 0x9) (.ldFVx x) ∧
    (∃ t, exec (.ldI nnn) s = .next t ∧ t.I.toNat = nnn.toNat ∧ ChangesOnly [] [.I] noCell s t) ∧
    (∃ t, exec (.ldFVx x) s = .next t ∧ t.I.toNat = (s.getV x).toNat * 5 ∧ ChangesOnly [] [.I] noCell s t)

/-- FX1E: I takes the exact sum modulo 0x1000 and VF whether it exceeds 0xFFF; x = F adds the old VF (D5, log 13). -/
def Obligations.AddIndexTruncatesTo12Bits : Prop :=
  ∀ (s : State) (x : Reg), IsWordOf (hexWord 0xF x 0x1 0xE) (.addIVx x) ∧
    ∃ t, exec (.addIVx x) s = .next t ∧ t.I.toNat = (s.I.toNat + (s.getV x).toNat) % 0x1000 ∧
      (t.getV 0xF).toNat = (if 0xFFF < s.I.toNat + (s.getV x).toNat then 1 else 0) ∧
      ChangesOnly [0xF] [.I] noCell s t

/-- FX33: the three decimal digits of V[x] at I, I+1, I+2; fatal and nothing stored when I+2 is past 0xFFF (D4, D14,
log 12). The digits are read back in a canonical memory. -/
def Obligations.BcdStoresThreeDigits : Prop :=
  ∀ (s : State) (x : Reg), IsWordOf (hexWord 0xF x 0x3 0x3) (.ldBVx x) ∧
    (s.I.toNat + 2 ≤ 0xFFF → ∃ t, exec (.ldBVx x) s = .next t ∧ ChangesOnly [] [] (cellsFrom s.I.toNat 3) s t ∧
      (Memory.wf (resetByte s.params) s.mem = true →
        (t.byteAt s.I.toNat).toNat = (s.getV x).toNat / 100 ∧
        (t.byteAt (s.I.toNat + 1)).toNat = (s.getV x).toNat / 10 % 10 ∧
        (t.byteAt (s.I.toNat + 2)).toNat = (s.getV x).toNat % 10)) ∧
    (0xFFF < s.I.toNat + 2 → exec (.ldBVx x) s = .next { s with fault := some .dataOutOfBounds })

/-- FX55: V0 to Vx to memory from I up; I moves past them in legacy mode only; fatal and nothing stored when I + x is past
0xFFF (D4, D5, D14, logs 12 and 13). -/
def Obligations.StoreRegistersToMemory : Prop :=
  ∀ (s : State) (x : Reg), IsWordOf (hexWord 0xF x 0x5 0x5) (.ldMemVx x) ∧
    (s.I.toNat + x.val ≤ 0xFFF → ∃ t, exec (.ldMemVx x) s = .next t ∧
      t.I.toNat = (if s.params.quirk then s.I.toNat else s.I.toNat + x.val + 1) ∧
      ChangesOnly [] [.I] (cellsFrom s.I.toNat (x.val + 1)) s t ∧
      (Memory.wf (resetByte s.params) s.mem = true → ∀ r : Reg, r ≤ x → t.byteAt (s.I.toNat + r.val) = s.getV r)) ∧
    (0xFFF < s.I.toNat + x.val → exec (.ldMemVx x) s = .next { s with fault := some .dataOutOfBounds })

/-- FX65: V0 to Vx from memory; the registers above x, and memory, are unchanged; I as for FX55; fatal and no register
written when I + x is past 0xFFF (D4, D5, D14, logs 12 and 13). -/
def Obligations.LoadRegistersFromMemory : Prop :=
  ∀ (s : State) (x : Reg), IsWordOf (hexWord 0xF x 0x6 0x5) (.ldVxMem x) ∧
    (s.I.toNat + x.val ≤ 0xFFF → ∃ t, exec (.ldVxMem x) s = .next t ∧
      t.I.toNat = (if s.params.quirk then s.I.toNat else s.I.toNat + x.val + 1) ∧
      (∀ r : Reg, r ≤ x → t.getV r = s.byteAt (s.I.toNat + r.val)) ∧
      ChangesOnly ((List.finRange 16).filter (· ≤ x)) [.I] noCell s t) ∧
    (0xFFF < s.I.toNat + x.val → exec (.ldVxMem x) s = .next { s with fault := some .dataOutOfBounds })

/-! ## The display -/

/-- R181 and R185: every cell goes off and redraw-pending is set, whatever they were. -/
def Obligations.ClsClearsEveryCell : Prop :=
  ∀ (s : State), IsWordOf (hexWord 0 0 0xE 0x0) .cls ∧
    ∃ t, exec .cls s = .next t ∧ (∀ r c, r < 32 → c < 64 → t.fb.cell r c = false) ∧ t.redraw = true ∧
      ChangesOnly [] [.fb, .redraw] noCell s t

/-- DXYN, cell by cell: exactly the cells the clipped sprite sets are turned over, VF says whether one of them was lit,
redraw is set even for n = 0; fatal and nothing drawn when a drawn row is past 0xFFF (D4, D14, D18, log 12). -/
def Obligations.DrwTurnsOverTheSpritesCells : Prop :=
  ∀ (s : State) (x y : Reg) (n : Fin 16), IsWordOf (hexWord 0xD x y n) (.drw x y n) ∧
    (s.SpriteInMemory (s.getV y) n → ∃ t, exec (.drw x y n) s = .next t ∧
      (∀ r c, r < 32 → c < 64 → (t.fb.cell r c ≠ s.fb.cell r c ↔ s.SpriteSets (s.getV x) (s.getV y) n r c)) ∧
      ((∃ r c, s.SpriteSets (s.getV x) (s.getV y) n r c ∧ s.fb.cell r c = true) → t.getV 0xF = 1) ∧
      (¬(∃ r c, s.SpriteSets (s.getV x) (s.getV y) n r c ∧ s.fb.cell r c = true) → t.getV 0xF = 0) ∧
      t.redraw = true ∧ ChangesOnly [0xF] [.fb, .redraw] noCell s t) ∧
    (¬s.SpriteInMemory (s.getV y) n → exec (.drw x y n) s = .next { s with fault := some .dataOutOfBounds })

/-- Drawing the same sprite twice (44_display.md, section 5): the bitmap is restored, the second VF says whether the
sprite meets the bitmap the first draw left, and it is 1 if the sprite has a drawn set bit over at least one cell that was
off. R188(c), marked derived, says it is always 1 for a sprite with a drawn set bit; that does not follow from R182 and
R183, and the statement departs from it (log 23, DEDUCED). x and y are not F, since DXYN rewrites VF. -/
def Obligations.DrawingTwiceRestoresTheBitmap : Prop :=
  ∀ (s : State) (x y : Reg) (n : Fin 16), x ≠ 0xF → y ≠ 0xF → s.SpriteInMemory (s.getV y) n →
    ∃ t u, exec (.drw x y n) s = .next t ∧ exec (.drw x y n) t = .next u ∧ u.fb = s.fb ∧
      ((∃ r c, s.SpriteSets (s.getV x) (s.getV y) n r c ∧ t.fb.cell r c = true) → u.getV 0xF = 1) ∧
      (¬(∃ r c, s.SpriteSets (s.getV x) (s.getV y) n r c ∧ t.fb.cell r c = true) → u.getV 0xF = 0) ∧
      ((∃ r c, s.SpriteSets (s.getV x) (s.getV y) n r c ∧ s.fb.cell r c = false) → u.getV 0xF = 1)

/-! ## Timers and keys -/

/-- R203: `V[x] <- DT`. -/
def Obligations.LdVxDtReadsTheDelayTimer : Prop :=
  ∀ (s : State) (x : Reg), IsWordOf (hexWord 0xF x 0x0 0x7) (.ldVxDt x) ∧
    ∃ t, exec (.ldVxDt x) s = .next t ∧ t.getV x = s.DT ∧ ChangesOnly [x] [] noCell s t

/-- R204 and R205: `DT <- V[x]`, `ST <- V[x]`. -/
def Obligations.TimerWrites : Prop :=
  ∀ (s : State) (x : Reg),
    IsWordOf (hexWord 0xF x 0x1 0x5) (.ldDtVx x) ∧ IsWordOf (hexWord 0xF x 0x1 0x8) (.ldStVx x) ∧
    (∃ t, exec (.ldDtVx x) s = .next t ∧ t.DT = s.getV x ∧ ChangesOnly [] [.DT] noCell s t) ∧
    (∃ t, exec (.ldStVx x) s = .next t ∧ t.ST = s.getV x ∧ ChangesOnly [] [.ST] noCell s t)

/-- EX9E and EXA1: the key state of V[x] decides the skip; a code of 16 or more is told to the host (kept in `out`, log 5)
and counts as not pressed. -/
def Obligations.KeySkips : Prop :=
  ∀ (s : State) (x : Reg), IsWordOf (hexWord 0xE x 0x9 0xE) (.skp x) ∧ IsWordOf (hexWord 0xE x 0xA 0x1) (.sknp x) ∧
    (∀ k : Reg, (s.getV x).toNat = k.val →
      (∃ t, exec (.skp x) s = .next t ∧ t.pc = (if s.inp.keys[k] = true then s.pc + 2 else s.pc) ∧
        ChangesOnly [] [.pc] noCell s t) ∧
      (∃ t, exec (.sknp x) s = .next t ∧ t.pc = (if s.inp.keys[k] = true then s.pc else s.pc + 2) ∧
        ChangesOnly [] [.pc] noCell s t)) ∧
    (16 ≤ (s.getV x).toNat →
      (∃ t, exec (.skp x) s = .next t ∧ t.out = .diag .keyOutOfRange :: s.out ∧ ChangesOnly [] [.out] noCell s t) ∧
      (∃ t, exec (.sknp x) s = .next t ∧ t.pc = s.pc + 2 ∧ t.out = .diag .keyOutOfRange :: s.out ∧
        ChangesOnly [] [.pc, .out] noCell s t))

/-- FX0A: pause, remember x, rewind pc by 2 modulo 2^16, and look at no key (D6, log 14). -/
def Obligations.WaitForKeyPauses : Prop :=
  ∀ (s : State) (x : Reg), IsWordOf (hexWord 0xF x 0x0 0xA) (.ldVxK x) ∧
    ∃ t, exec (.ldVxK x) s = .next t ∧ t.paused = true ∧ t.target = x ∧
      t.pc.toNat = (s.pc.toNat + 0x10000 - 2) % 0x10000 ∧ ChangesOnly [] [.paused, .target, .pc] noCell s t

/-- A paused CYCLE (D6, log 14), the host's default one or the next on its agenda on the inputs it brings (logs 2 and 3):
without a reported key nothing changes; with key k, V[target] takes k, the wait ends and pc passes the FX0A; nothing is
fetched. -/
def Obligations.PausedCycleOnlyResumes : Prop :=
  ∀ (s : State) (inp : Inputs) (rest : List HostOp), s.fault = none → s.paused = true → s.CallsCycle inp rest →
    (inp.last = none → step s = .next { s with inp := inp, agenda := rest }) ∧
    (∀ k : Reg, inp.last = some k → ∃ t, step s = .next t ∧ (t.getV s.target).toNat = k.val ∧ t.paused = false ∧
      t.pc = s.pc + 2 ∧ ChangesOnly [s.target] [.paused, .pc] noCell { s with inp := inp, agenda := rest } t)

/-- TICK: each timer goes down by 1 and stops at 0, on its own; while paused both are frozen (D7, log 15). -/
def Obligations.TickCountsDownToZero : Prop :=
  ∀ (s : State) (rest : List HostOp), s.fault = none → s.agenda = .tick :: rest →
    (s.paused = false → ∃ t, step s = .next t ∧ t.DT.toNat = s.DT.toNat - 1 ∧ t.ST.toNat = s.ST.toNat - 1 ∧
      t.agenda = rest ∧ ChangesOnly [] [.DT, .ST, .agenda] noCell s t) ∧
    (s.paused = true → step s = .next { s with agenda := rest })

/-! ## Encoding -/

/-- Every word written digit by digit from the pattern column of 30_encoding.md section 5 is its instruction, with every
value of its operands, whatever the parameters; 8XY1 on the machines that have it (D11, log 20). Words outside the column
(family 0 with other digits, 5XYn and 9XYn with n not 0, the unrecognized ones) are stated apart. -/
def Obligations.EveryPatternDecodes : Prop :=
  (∀ (x y : Reg) (n : Fin 16) (nn : Byte) (nnn : Imm12),
    IsWordOf 0x00E0 .cls ∧ IsWordOf 0x00EE .ret ∧ IsWordOf (hexWordNNN 0x1 nnn) (.jp nnn) ∧
    IsWordOf (hexWordNNN 0x2 nnn) (.call nnn) ∧ IsWordOf (hexWordNN 0x3 x nn) (.seImm x nn) ∧
    IsWordOf (hexWordNN 0x4 x nn) (.sneImm x nn) ∧ IsWordOf (hexWord 0x5 x y 0) (.seReg x y) ∧
    IsWordOf (hexWordNN 0x6 x nn) (.ldImm x nn) ∧ IsWordOf (hexWordNN 0x7 x nn) (.addImm x nn) ∧
    IsWordOf (hexWord 0x8 x y 0x0) (.ldReg x y) ∧ IsWordOf (hexWord 0x8 x y 0x2) (.andReg x y) ∧
    IsWordOf (hexWord 0x8 x y 0x3) (.xorReg x y) ∧ IsWordOf (hexWord 0x8 x y 0x4) (.addReg x y) ∧
    IsWordOf (hexWord 0x8 x y 0x5) (.sub x y) ∧ IsWordOf (hexWord 0x8 x y 0x6) (.shr x y) ∧
    IsWordOf (hexWord 0x8 x y 0x7) (.subn x y) ∧ IsWordOf (hexWord 0x8 x y 0xE) (.shl x y) ∧
    IsWordOf (hexWord 0x9 x y 0) (.sneReg x y) ∧ IsWordOf (hexWordNNN 0xA nnn) (.ldI nnn) ∧
    IsWordOf (hexWordNNN 0xB nnn) (.jpOff nnn) ∧ IsWordOf (hexWordNN 0xC x nn) (.rnd x nn) ∧
    IsWordOf (hexWord 0xD x y n) (.drw x y n) ∧ IsWordOf (hexWord 0xE x 0x9 0xE) (.skp x) ∧
    IsWordOf (hexWord 0xE x 0xA 0x1) (.sknp x) ∧ IsWordOf (hexWord 0xF x 0x0 0x7) (.ldVxDt x) ∧
    IsWordOf (hexWord 0xF x 0x0 0xA) (.ldVxK x) ∧ IsWordOf (hexWord 0xF x 0x1 0x5) (.ldDtVx x) ∧
    IsWordOf (hexWord 0xF x 0x1 0x8) (.ldStVx x) ∧ IsWordOf (hexWord 0xF x 0x1 0xE) (.addIVx x) ∧
    IsWordOf (hexWord 0xF x 0x2 0x9) (.ldFVx x) ∧ IsWordOf (hexWord 0xF x 0x3 0x3) (.ldBVx x) ∧
    IsWordOf (hexWord 0xF x 0x5 0x5) (.ldMemVx x) ∧ IsWordOf (hexWord 0xF x 0x6 0x5) (.ldVxMem x)) ∧
  ∀ (p : Params) (x y : Reg), p.or8xy1 = true → decode p (hexWord 0x8 x y 0x1) = .orReg x y

/-- R80 and R81: families 0xE and 0xF sub-dispatch on nn, and every other nn is `UNRECOGNIZED`. -/
def Obligations.FamiliesEAndFDispatchOnNn : Prop :=
  ∀ (p : Params) (x : Reg) (nn : Byte),
    decode p (hexWordNN 0xE x nn) =
      (if nn = 0x9E then .skp x else if nn = 0xA1 then .sknp x else .unrecognized (hexWordNN 0xE x nn)) ∧
    decode p (hexWordNN 0xF x nn) =
      (if nn = 0x07 then .ldVxDt x else if nn = 0x0A then .ldVxK x else if nn = 0x15 then .ldDtVx x
       else if nn = 0x18 then .ldStVx x else if nn = 0x1E then .addIVx x else if nn = 0x29 then .ldFVx x
       else if nn = 0x33 then .ldBVx x else if nn = 0x55 then .ldMemVx x else if nn = 0x65 then .ldVxMem x
       else .unrecognized (hexWordNN 0xF x nn))

/-- Family 0x0 under each setting of `P_FAMILY0_KEY` (D9): the two instructions, and no other word of the family. -/
def Obligations.FamilyZeroFollowsItsKey : Prop :=
  ∀ (p : Params) (x y n : Reg), ∀ w, w = hexWord 0 x y n →
    (p.family0Key = .lowByte → decode p w =
      if y = 0xE ∧ n = 0 then .cls else if y = 0xE ∧ n = 0xE then .ret else .unrecognized w) ∧
    (p.family0Key = .lowNibble → decode p w = if n = 0 then .cls else if n = 0xE then .ret else .unrecognized w) ∧
    (p.family0Key = .fullWord → decode p w =
      if x = 0 ∧ y = 0xE ∧ n = 0 then .cls else if x = 0 ∧ y = 0xE ∧ n = 0xE then .ret else .unrecognized w)

/-- R82: with the default parameters the unrecognized words are exactly the ones R82 lists, and each is a no-op. -/
def Obligations.UnrecognizedWordsAreExactlyListed : Prop :=
  ∀ (f x y n : Fin 16), ∀ w, w = hexWord f x y n →
    (decode Params.default w = .unrecognized w ↔
      (f = 0x0 ∧ ¬(y = 0xE ∧ (n = 0x0 ∨ n = 0xE))) ∨
      (f = 0x8 ∧ (n = 0x1 ∨ (0x8 ≤ n ∧ n ≤ 0xD) ∨ n = 0xF)) ∨
      (f = 0xE ∧ ¬((y = 0x9 ∧ n = 0xE) ∨ (y = 0xA ∧ n = 0x1))) ∨
      (f = 0xF ∧ ¬((y = 0x0 ∧ (n = 0x7 ∨ n = 0xA)) ∨ (y = 0x1 ∧ (n = 0x5 ∨ n = 0x8 ∨ n = 0xE)) ∨ (y = 0x2 ∧ n = 0x9) ∨
        (y = 0x3 ∧ n = 0x3) ∨ (y = 0x5 ∧ n = 0x5) ∨ (y = 0x6 ∧ n = 0x5)))) ∧
    (∀ s, exec (.unrecognized w) s = .next s)

/-- The word of a well-formed instruction decodes to it, also from its bytes in memory order with any bytes after them,
on every machine: no bit of an operand is dropped. -/
def Obligations.DecodeOfEncode : Prop :=
  ∀ (p : Params) (i : Instr), i.wellFormed p = true →
    decode p (encode i) = i ∧ ∀ rest, decodeBytes p (encodeBytes i ++ rest) = .ok (i, rest)

/-- Decoding is total and gives only well-formed instructions; an unrecognized one keeps the word. -/
def Obligations.DecodedInstructionIsWellFormed : Prop :=
  ∀ (p : Params) (w : Word), (decode p w).wellFormed p = true ∧ ∀ v, decode p w = .unrecognized v → v = w

/-- A few words written out from the spec's own examples and test vectors. -/
def Obligations.ExampleWordsDecode : Prop :=
  decode Params.default 0x00E0 = .cls ∧ decode Params.default 0x2300 = .call 0x300 ∧
  decode Params.default 0x8015 = .sub 0x0 0x1 ∧ decode Params.default 0xF255 = .ldMemVx 0x2 ∧
  decode Params.default 0xD125 = .drw 0x1 0x2 0x5 ∧ decode Params.default 0xE09E = .skp 0x0 ∧
  decode Params.default 0xF0FF = .unrecognized 0xF0FF

/-! ## The pass and the operations of the host -/

/-- A step runs the decoded instruction: when the word at pc decodes to `i`, a CYCLE is `exec i` on the state with pc
past the word; if that raised a fatal condition, the state before the CYCLE with the latch set (D14). The CYCLE may be
the host's default one or the next on the agenda, on the inputs it brings (logs 2 and 3). -/
def Obligations.StepRunsTheDecodedInstruction : Prop :=
  ∀ (s t : State) (i : Instr), s.fault = none → s.paused = false → s.pc.toNat ≤ 0xFFE →
    decode s.params (s.wordAt s.pc.toNat) = i →
    (s.agenda = [] → exec i { s with pc := s.pc + 2 } = .next t →
      (t.fault = none → step s = .next t) ∧ (∀ c, t.fault = some c → step s = .next { s with fault := some c })) ∧
    (∀ inp rest, s.agenda = .cycle inp :: rest →
      exec i { s with pc := s.pc + 2, inp := inp, agenda := rest } = .next t →
      (t.fault = none → step s = .next t) ∧
      (∀ c, t.fault = some c → step s = .next { s with inp := inp, agenda := rest, fault := some c }))

/-- A CYCLE whose pc or pc + 1 is outside memory only latches the fetch fault; pc keeps the offending address (D14, log 6).
The CYCLE may be the host's default one or the next on the agenda, on the inputs it brings (logs 2 and 3). -/
def Obligations.FetchOutOfBoundsIsFatal : Prop :=
  ∀ (s : State) (inp : Inputs) (rest : List HostOp), s.fault = none → s.paused = false → s.CallsCycle inp rest →
    0xFFE < s.pc.toNat → step s = .next { s with inp := inp, agenda := rest, fault := some .fetchOutOfBounds }

/-- EXEC (D8, log 16): the word is decoded and executed with the flag `q` on the state as it is, with no fetch, no pc
advance and no pause check; the machine's own quirk parameter is unchanged by it. If that raised a fatal condition, the
state before with the cause latched and nothing else done (R222, D14, log 6). -/
def Obligations.ExecOperationRunsAWord : Prop :=
  ∀ (s u : State) (w : Word) (q : Bool) (inp : Inputs) (rest : List HostOp), s.fault = none →
    s.agenda = .exec w q inp :: rest →
    exec (decode s.params w) { s with inp := inp, agenda := rest, params := { s.params with quirk := q } } = .next u →
    (u.fault = none → step s = .next { u with params := s.params }) ∧
    (∀ c, u.fault = some c → step s = .next { s with inp := inp, agenda := rest, fault := some c })

/-- LOAD (D19, log 17): the bytes from 0x200 up and nothing else, or, when there are more than 3584, only the latch
(D14). The bytes are read back in a canonical memory. -/
def Obligations.LoadWritesTheProgram : Prop :=
  ∀ (s : State) (b : List Byte) (rest : List HostOp), s.fault = none → s.agenda = .load b :: rest →
    (b.length ≤ 3584 → ∃ t, step s = .next t ∧ t.agenda = rest ∧
      ChangesOnly [] [.agenda] (cellsFrom 0x200 b.length) s t ∧
      (Memory.wf (resetByte s.params) s.mem = true → ∀ (k : Nat) (h : k < b.length), t.byteAt (0x200 + k) = b[k])) ∧
    (3584 < b.length → step s = .next { s with agenda := rest, fault := some .loadTooLarge })

/-- The three operations of the renderer (R187) and FAULT_QUERY (R90, R222), on a machine that has not failed: the answers
of the three queries are what they say, none for the cause, and a query changes nothing but the tape that holds the answers
(log 5); the acknowledgment clears redraw-pending alone. After a failure: `FailedMachineOnlyAnswersQueries`. -/
def Obligations.QueriesAndAcknowledgment : Prop :=
  ∀ (s : State) (rest : List HostOp), s.fault = none →
    (s.agenda = .fbRead :: rest → step s = .next { s with agenda := rest, out := .bitmap s.fb :: s.out }) ∧
    (s.agenda = .redrawQuery :: rest → step s = .next { s with agenda := rest, out := .redrawPending s.redraw :: s.out }) ∧
    (s.agenda = .faultQuery :: rest → step s = .next { s with agenda := rest, out := .faultLatch none :: s.out }) ∧
    (s.agenda = .redrawAck :: rest → step s = .next { s with agenda := rest, redraw := false })

/-- After a fatal condition (D14, D25, log 6) only the queries answer, and they leave the latch set; every other operation
finds the machine halted. -/
def Obligations.FailedMachineOnlyAnswersQueries : Prop :=
  ∀ (s : State) (c : FatalCode), s.fault = some c →
    (s.agenda = [] → step s = .fault (.halted c)) ∧
    (∀ op rest, s.agenda = op :: rest →
      (op = .fbRead → step s = .next { s with agenda := rest, out := .bitmap s.fb :: s.out }) ∧
      (op = .redrawQuery → step s = .next { s with agenda := rest, out := .redrawPending s.redraw :: s.out }) ∧
      (op = .faultQuery → step s = .next { s with agenda := rest, out := .faultLatch (some c) :: s.out }) ∧
      (op ≠ .fbRead → op ≠ .redrawQuery → op ≠ .faultQuery → step s = .fault (.halted c)))

/-- A fatal condition is precise (D14, log 6): a step that latches one changes nothing else of the machine, whatever the
operation was; only the operation has left the agenda, and the inputs held are the ones it brought, or for a LOAD, which
brings none, the ones held before (log 2). -/
def Obligations.FatalConditionsArePrecise : Prop :=
  ∀ (s t : State) (c : FatalCode), s.fault = none → step s = .next t → t.fault = some c →
    t = { s with fault := some c, agenda := s.agenda.tail, inp := s.nextOp.inputsAfter s.inp }

/-- Only CALL, DXYN, FX33, FX55 and FX65 raise a fatal condition, each its own (D4, D14): on any other instruction the
latch stays as it was. -/
def Obligations.OnlyFiveInstructionsAreFatal : Prop :=
  ∀ (s t : State) (i : Instr), exec i s = .next t → t.fault ≠ s.fault →
    (t.fault = some .stackOverflow ∧ ∃ nnn, i = .call nnn) ∨
    (t.fault = some .dataOutOfBounds ∧
      ((∃ x y n, i = .drw x y n) ∨ (∃ x, i = .ldBVx x) ∨ (∃ x, i = .ldMemVx x) ∨ (∃ x, i = .ldVxMem x)))

/-- A done state (D28) stays: the CYCLE that runs a jump to itself gives the same state back. `State.done` is R102's but for
pc, which it asks to be at most 0xFFE where R102 says 0xFFF (log 21, DEDUCED): a CYCLE at 0xFFF is fatal by R51. -/
def Obligations.DoneStateStays : Prop :=
  ∀ (s : State), s.done → s.agenda = [] → step s = .next s

/-! ## Reset -/

/-- RESET gives every piece of state its value (D13 for I, paused, target, fb, redraw and fault), on every machine. -/
def Obligations.ResetState : Prop :=
  ∀ (p : Params) (s : State), s = State.create p →
    (∀ a, 0x50 ≤ a → a < 0x1000 → s.byteAt a = 0) ∧ (∀ r, s.getV r = 0) ∧ s.I = 0 ∧ s.pc = 0x200 ∧
    (∀ k, k < 16 → s.stackAt k = 0) ∧ s.sp = 0 ∧ s.DT = 0 ∧ s.ST = 0 ∧ s.paused = false ∧ s.target = 0 ∧
    (∀ r c, s.fb.cell r c = false) ∧ s.redraw = false ∧ s.fault = none ∧ s.params = p

/-- R254: the font is there from reset, whatever its bytes; 0x050 to 0x1FF are zero after reset, and LOAD leaves them so. -/
def Obligations.FontIsPresentFromReset : Prop :=
  ∀ (p : Params) (b : List Byte),
    (∀ (a : Nat) (h : a < 80), (State.create p).byteAt a = p.font[a]) ∧
    (∀ a, 0x50 ≤ a → a ≤ 0x1FF → (State.create p).byteAt a = 0 ∧ (opLoad b (State.create p)).byteAt a = 0)

/-- The invariant holds at reset, on every machine. Canonical memory is the model's own (log 8); I is 0 at reset by D13
(log 9), and its bound is R24 with the derived corner case of R162; the range of sp is R26 and R36. -/
def Obligations.ResetMeetsTheInvariant : Prop :=
  (∀ p, (State.create p).Inv) ∧ State.Inv State.reset

/-- Every step keeps the invariant: memory keeps its canonical form (the model's own, log 8), sp stays in 0 to 16 (R26,
R36), I never exceeds 0x1000 (R24 with the derived corner case of R162). -/
def Obligations.EveryStepKeepsTheInvariant : Prop :=
  ∀ (s t : State), s.Inv → step s = .next t → t.Inv

/-! ## Whole-machine rules -/

/-- Every instruction, in every state, answers a next state: no encoding traps, none is refused. On a fatal condition CALL,
DXYN, FX33, FX55 and FX65 answer one too, which has the cause latched (the model's reading of R222 and D14: log 6, DESIGN
CHOICE). -/
def Obligations.EveryInstructionAnswersANextState : Prop :=
  ∀ (i : Instr) (s : State), ∃ t, exec i s = .next t

/-- No step changes a parameter of the machine (log 1). -/
def Obligations.ParametersNeverChange : Prop :=
  ∀ (s t : State), step s = .next t → t.params = s.params

/-- Who writes what: memory only FX33 and FX55; I only ANNN, FX1E, FX29 and, in legacy mode, FX55 and FX65; the stack only
CALL, sp only CALL and RET; DT only FX15, ST only FX18; paused and target only FX0A; the display only 00E0 and DXYN. -/
def Obligations.OnlyTheNamedInstructionsWrite : Prop :=
  ∀ (s t : State) (i : Instr), exec i s = .next t →
    ((∀ x, i ≠ .ldBVx x) → (∀ x, i ≠ .ldMemVx x) → ∀ a, t.byteAt a = s.byteAt a) ∧
    ((∀ nnn, i ≠ .ldI nnn) → (∀ x, i ≠ .addIVx x) → (∀ x, i ≠ .ldFVx x) →
      (s.params.quirk = false → (∀ x, i ≠ .ldMemVx x) ∧ ∀ x, i ≠ .ldVxMem x) → t.I = s.I) ∧
    ((∀ nnn, i ≠ .call nnn) → t.stack = s.stack ∧ (i ≠ .ret → t.sp = s.sp)) ∧
    ((∀ x, i ≠ .ldDtVx x) → t.DT = s.DT) ∧ ((∀ x, i ≠ .ldStVx x) → t.ST = s.ST) ∧
    ((∀ x, i ≠ .ldVxK x) → t.paused = s.paused ∧ t.target = s.target) ∧
    (i ≠ .cls → (∀ x y n, i ≠ .drw x y n) → t.fb = s.fb ∧ t.redraw = s.redraw)

/-- Only REDRAW_ACK clears redraw-pending, and only a resuming CYCLE ends a wait (D6). -/
def Obligations.OnlyTheNamedOperationsClear : Prop :=
  ∀ (s t : State), step s = .next t →
    (s.redraw = true → t.redraw = false → s.nextOp = .redrawAck) ∧
    (s.paused = true → t.paused = false → ∃ inp k, s.nextOp = .cycle inp ∧ inp.last = some k)

/-- No instruction reads the sound timer or redraw-pending: other values there give the same outcome but for them. -/
def Obligations.SoundTimerAndRedrawAreNotRead : Prop :=
  ∀ (s : State) (i : Instr) (v : Byte) (b : Bool), ∃ t t', exec i s = .next t ∧
    exec i { s with ST := v, redraw := b } = .next t' ∧ t' = { t with ST := t'.ST, redraw := t'.redraw } ∧
    ((∀ x, i ≠ .ldStVx x) → t'.ST = v)

/-- Stack entries at sp and above cannot be observed: two states that differ only there still differ only there after any
instruction. -/
def Obligations.StaleStackEntriesAreNotObservable : Prop :=
  ∀ (s t : State) (i : Instr) (st : Vector Word 16), exec i s = .next t → s.sp ≤ 16 →
    (∀ k, k < s.sp → { s with stack := st }.stackAt k = s.stackAt k) →
    ∃ t', exec i { s with stack := st } = .next t' ∧ t = { t' with stack := t.stack } ∧
      ∀ k, k < t.sp → t'.stackAt k = t.stackAt k

/-- The quirk flag changes only 8XY6, 8XYE, BNNN, FX55 and FX65 (D22): every other instruction does the same under both
settings. -/
def Obligations.QuirkChangesOnlyFiveInstructions : Prop :=
  ∀ (s : State) (i : Instr) (q : Bool), (∀ x y, i ≠ .shr x y) → (∀ x y, i ≠ .shl x y) → (∀ nnn, i ≠ .jpOff nnn) →
    (∀ x, i ≠ .ldMemVx x) → (∀ x, i ≠ .ldVxMem x) →
    ∃ t, exec i s = .next t ∧
      exec i { s with params := { s.params with quirk := q } } = .next { t with params := { s.params with quirk := q } }

/-- CALL of a RET comes back: two CYCLEs later pc is the address after the CALL, the stack depth is as before, and so is
every stack entry but the dead one the CALL wrote, which still holds the return address (R111, R113; log 3). -/
def Obligations.CallThenRetComesBack : Prop :=
  ∀ (s : State) (nnn : Imm12), s.Running → s.sp < 16 → s.pc.toNat ≤ 0xFFE → nnn.toNat ≤ 0xFFE →
    s.wordAt s.pc.toNat = hexWordNNN 0x2 nnn → s.wordAt nnn.toNat = 0x00EE →
    ∃ t u, step s = .next t ∧ t.pc.toNat = nnn.toNat ∧ t.sp = s.sp + 1 ∧ step t = .next u ∧ u.pc = s.pc + 2 ∧
      u.sp = s.sp ∧ (∀ k, k < 16 → u.stackAt k = if k = s.sp then s.pc + 2 else s.stackAt k) ∧ ChangesOnly [] [.pc, .stack] noCell s u

/-- Memory is plain storage, and the next fetch sees a write: a stored byte is read back, every other cell is untouched,
and two stores at pc are the word fetched. -/
def Obligations.StoresAreReadBackAndFetched : Prop :=
  ∀ (s : State) (a : Nat) (v w : Byte), Memory.wf (resetByte s.params) s.mem = true → a < 0x1000 →
    (∀ b, (s.storeByte a v).byteAt b = if b = a then v else s.byteAt b) ∧
    (s.pc.toNat = a → a ≤ 0xFFE →
      ((s.storeByte a v).storeByte (a + 1) w).fetch16 = some (BitVec.ofNat 16 (0x100 * v.toNat + w.toNat)))
end

