-- ==== Sys2Proof/Laws/Decode.lean ====
section
/-! SUPPORT. The laws of fields and packed words: every field and every packed word as a number, the fields of each
format, and bytes split and joined. -/

namespace Sys2Proof

/-! ## Fields as numbers (R71) -/

theorem fieldF_toNat (w : Word) : (fieldF w).toNat = w.toNat / 0x1000 := by
  have := w.isLt
  simp only [fieldF, BitVec.extractLsb'_toNat, Nat.shiftRight_eq_div_pow]
  omega

theorem fieldX_val (w : Word) : (fieldX w).val = w.toNat / 0x100 % 0x10 := by
  show (w.extractLsb' 8 4).toNat = _
  simp only [BitVec.extractLsb'_toNat, Nat.shiftRight_eq_div_pow]

theorem fieldY_val (w : Word) : (fieldY w).val = w.toNat / 0x10 % 0x10 := by
  show (w.extractLsb' 4 4).toNat = _
  simp only [BitVec.extractLsb'_toNat, Nat.shiftRight_eq_div_pow]

theorem fieldN_val (w : Word) : (fieldN w).val = w.toNat % 0x10 := by
  show (w.extractLsb' 0 4).toNat = _
  simp only [BitVec.extractLsb'_toNat, Nat.shiftRight_eq_div_pow]; omega

theorem fieldNN_toNat (w : Word) : (fieldNN w).toNat = w.toNat % 0x100 := by
  simp only [fieldNN, BitVec.extractLsb'_toNat, Nat.shiftRight_eq_div_pow]; omega

theorem fieldNNN_toNat (w : Word) : (fieldNNN w).toNat = w.toNat % 0x1000 := by
  simp only [fieldNNN, BitVec.extractLsb'_toNat, Nat.shiftRight_eq_div_pow]; omega

/-! ## Packed words as numbers (R72) -/

theorem append_toNat {m n : Nat} (a : BitVec m) (b : BitVec n) : (a ++ b).toNat = 2 ^ n * a.toNat + b.toNat := by
  rw [BitVec.toNat_append, ← Nat.shiftLeft_add_eq_or_of_lt b.isLt, Nat.shiftLeft_eq, Nat.mul_comm]

theorem nibble_toNat (r : Fin 16) : (nibble r).toNat = r.val := rfl

theorem packNNN_toNat (f : BitVec 4) (nnn : Imm12) : (packNNN f nnn).toNat = 0x1000 * f.toNat + nnn.toNat :=
  append_toNat f nnn

theorem packXNN_toNat (f : BitVec 4) (x : Reg) (nn : Byte) :
    (packXNN f x nn).toNat = 0x1000 * f.toNat + 0x100 * x.val + nn.toNat := by
  have h := append_toNat f (nibble x ++ nn)
  have h2 := append_toNat (nibble x) nn
  have h3 := nibble_toNat x
  show (f ++ (nibble x ++ nn)).toNat = _
  omega

theorem packXYN_toNat (f : BitVec 4) (x y : Reg) (n : Fin 16) :
    (packXYN f x y n).toNat = 0x1000 * f.toNat + 0x100 * x.val + 0x10 * y.val + n.val := by
  have h := append_toNat f (nibble x ++ (nibble y ++ nibble n))
  have h2 := append_toNat (nibble x) (nibble y ++ nibble n)
  have h3 := append_toNat (nibble y) (nibble n)
  have h4 := nibble_toNat x
  have h5 := nibble_toNat y
  have h6 := nibble_toNat n
  show (f ++ (nibble x ++ (nibble y ++ nibble n))).toNat = _
  omega

/-! ## The fields of each format -/

@[simp] theorem fieldF_packNNN (f : BitVec 4) (nnn : Imm12) : fieldF (packNNN f nnn) = f := by
  apply BitVec.eq_of_toNat_eq; rw [fieldF_toNat, packNNN_toNat]; omega

@[simp] theorem fieldNNN_packNNN (f : BitVec 4) (nnn : Imm12) : fieldNNN (packNNN f nnn) = nnn := by
  apply BitVec.eq_of_toNat_eq; rw [fieldNNN_toNat, packNNN_toNat]; omega

@[simp] theorem fieldF_packXNN (f : BitVec 4) (x : Reg) (nn : Byte) : fieldF (packXNN f x nn) = f := by
  apply BitVec.eq_of_toNat_eq; rw [fieldF_toNat, packXNN_toNat]; omega

@[simp] theorem fieldX_packXNN (f : BitVec 4) (x : Reg) (nn : Byte) : fieldX (packXNN f x nn) = x := by
  apply Fin.ext; rw [fieldX_val, packXNN_toNat]; omega

@[simp] theorem fieldNN_packXNN (f : BitVec 4) (x : Reg) (nn : Byte) : fieldNN (packXNN f x nn) = nn := by
  apply BitVec.eq_of_toNat_eq; rw [fieldNN_toNat, packXNN_toNat]; omega

@[simp] theorem fieldF_packXYN (f : BitVec 4) (x y : Reg) (n : Fin 16) : fieldF (packXYN f x y n) = f := by
  apply BitVec.eq_of_toNat_eq; rw [fieldF_toNat, packXYN_toNat]; omega

@[simp] theorem fieldX_packXYN (f : BitVec 4) (x y : Reg) (n : Fin 16) : fieldX (packXYN f x y n) = x := by
  apply Fin.ext; rw [fieldX_val, packXYN_toNat]; omega

@[simp] theorem fieldY_packXYN (f : BitVec 4) (x y : Reg) (n : Fin 16) : fieldY (packXYN f x y n) = y := by
  apply Fin.ext; rw [fieldY_val, packXYN_toNat]; omega

@[simp] theorem fieldN_packXYN (f : BitVec 4) (x y : Reg) (n : Fin 16) : fieldN (packXYN f x y n) = n := by
  apply Fin.ext; rw [fieldN_val, packXYN_toNat]; omega

/-! ## Words written as digits -/

theorem hexWord_eq (a d : Nat) (x y : Reg) (hd : d < 16) :
    Machine.hexWord a x y d = packXYN (BitVec.ofNat 4 a) x y ⟨d, hd⟩ := by
  apply BitVec.eq_of_toNat_eq
  rw [packXYN_toNat, Machine.hexWord, BitVec.toNat_ofNat, BitVec.toNat_ofNat]
  show _ = 0x1000 * (a % 16) + 0x100 * x.val + 0x10 * y.val + d
  omega

/-- The digits of a word written out are its fields. -/
theorem fields_hexWord (f x y n : Fin 16) :
    (fieldF (Machine.hexWord f x y n)).toNat = f.val ∧ fieldX (Machine.hexWord f x y n) = x ∧
      fieldY (Machine.hexWord f x y n) = y ∧ fieldN (Machine.hexWord f x y n) = n := by
  have h : (Machine.hexWord f x y n).toNat = 0x1000 * f.val + 0x100 * x.val + 0x10 * y.val + n.val := by
    rw [Machine.hexWord, BitVec.toNat_ofNat]; omega
  refine ⟨?_, ?_, ?_, ?_⟩
  · rw [fieldF_toNat, h]; omega
  · apply Fin.ext; rw [fieldX_val, h]; omega
  · apply Fin.ext; rw [fieldY_val, h]; omega
  · apply Fin.ext; rw [fieldN_val, h]; omega

/-- `nn` of a word written out is its last two digits. -/
theorem fieldNN_hexWord_iff (f x y n c d : Fin 16) :
    fieldNN (Machine.hexWord f x y n) = BitVec.ofNat 8 (0x10 * c.val + d.val) ↔ y = c ∧ n = d := by
  rw [BitVec.toNat_eq, fieldNN_toNat, Machine.hexWord, BitVec.toNat_ofNat, BitVec.toNat_ofNat, Fin.ext_iff, Fin.ext_iff]
  omega

theorem hexWordNN_eq (a : Nat) (x : Reg) (nn : Byte) :
    Machine.hexWordNN a x nn = packXNN (BitVec.ofNat 4 a) x nn := by
  apply BitVec.eq_of_toNat_eq
  rw [packXNN_toNat, Machine.hexWordNN, BitVec.toNat_ofNat, BitVec.toNat_ofNat]
  omega

theorem hexWordNNN_eq (a : Nat) (nnn : Imm12) :
    Machine.hexWordNNN a nnn = packNNN (BitVec.ofNat 4 a) nnn := by
  apply BitVec.eq_of_toNat_eq
  rw [packNNN_toNat, Machine.hexWordNNN, BitVec.toNat_ofNat, BitVec.toNat_ofNat]
  omega

/-- Four digits whose last two spell an operation are a word of format `XOP`. -/
theorem hexWord_eq_packXNN (a c d : Nat) (x : Reg) (hc : c < 16) (hd : d < 16) :
    Machine.hexWord a x c d = packXNN (BitVec.ofNat 4 a) x (BitVec.ofNat 8 (0x10 * c + d)) := by
  apply BitVec.eq_of_toNat_eq
  rw [packXNN_toNat, Machine.hexWord, BitVec.toNat_ofNat, BitVec.toNat_ofNat, BitVec.toNat_ofNat]
  omega

/-! ## The unrecognized words (R82) -/

/-- n compared as bits is n compared as a number. -/
theorem low4_eq (w : Word) (k : Fin 16) : (w.extractLsb' 0 4 = BitVec.ofFin k) ↔ fieldN w = k := by
  constructor
  · intro h; exact congrArg BitVec.toFin h
  · intro h; exact congrArg BitVec.ofFin h

theorem decodeFamily0_unrecognized (p : Params) (w : Word) (hf : (fieldF w).toNat = 0)
    (h : unrecognizedWord p w = true) : decodeFamily0 p w = .unrecognized w := by
  have hf' : (w.extractLsb' 12 4).toNat = 0 := hf
  have hnn : w.extractLsb' 0 8 = fieldNN w := rfl
  simp only [unrecognizedWord, hf', hnn] at h
  cases hk : p.family0Key <;> simp only [hk, Bool.and_eq_true, bne_iff_ne, ne_eq] at h <;>
    simp only [decodeFamily0, hk]
  · rw [if_neg h.1, if_neg h.2]
  · rw [if_neg (fun e => h.1 ((low4_eq w 0).2 e)), if_neg (fun e => h.2 ((low4_eq w 0xE).2 e))]
  · rw [if_neg h.1, if_neg h.2]

theorem decodeFamily8_unrecognized (p : Params) (w : Word) (hf : (fieldF w).toNat = 8)
    (h : unrecognizedWord p w = true) : decodeFamily8 p w = .unrecognized w := by
  have hf' : (w.extractLsb' 12 4).toNat = 8 := hf
  have hn : (w.extractLsb' 0 4).toNat = (fieldN w).val := rfl
  have h1 : (w.extractLsb' 0 4 = 1) ↔ fieldN w = 1 := low4_eq w 1
  have h15 : (w.extractLsb' 0 4 = 15) ↔ fieldN w = 15 := low4_eq w 15
  simp only [unrecognizedWord, hf', hn, Bool.or_eq_true, Bool.and_eq_true, beq_iff_eq, decide_eq_true_eq,
    Bool.not_eq_true', h1, h15, Fin.ext_iff] at h
  unfold decodeFamily8
  split <;> rename_i e <;> simp_all

theorem decodeFamilyE_unrecognized (p : Params) (w : Word) (hf : (fieldF w).toNat = 0xE)
    (h : unrecognizedWord p w = true) : decodeFamilyE w = .unrecognized w := by
  have hf' : (w.extractLsb' 12 4).toNat = 0xE := hf
  have hnn : w.extractLsb' 0 8 = fieldNN w := rfl
  simp [unrecognizedWord, hf', hnn] at h
  simp [decodeFamilyE, h]

theorem decodeFamilyF_unrecognized (p : Params) (w : Word) (hf : (fieldF w).toNat = 0xF)
    (h : unrecognizedWord p w = true) : decodeFamilyF w = .unrecognized w := by
  have hf' : (w.extractLsb' 12 4).toNat = 0xF := hf
  have hnn : w.extractLsb' 0 8 = fieldNN w := rfl
  simp [unrecognizedWord, hf', hnn] at h
  simp [decodeFamilyF, h]

theorem nAllowed59_unrecognized (p : Params) (w : Word) (hf : (fieldF w).toNat = 5 ∨ (fieldF w).toNat = 9)
    (h : unrecognizedWord p w = true) : nAllowed59 p w = false := by
  have hf' : (w.extractLsb' 12 4).toNat = 5 ∨ (w.extractLsb' 12 4).toNat = 9 := hf
  have h0 : (w.extractLsb' 0 4 = 0) ↔ fieldN w = 0 := low4_eq w 0
  rcases hf' with hf' | hf' <;> simp [unrecognizedWord, hf'] at h <;>
    simp [nAllowed59, h.1] <;> exact fun e => h.2 (h0.2 e)

/-- A word of R82's list decodes to `UNRECOGNIZED`. -/
theorem decode_of_unrecognizedWord (p : Params) (w : Word) (h : unrecognizedWord p w = true) :
    decode p w = .unrecognized w := by
  unfold decode
  split <;> rename_i hf
  case h_1 => exact decodeFamily0_unrecognized p w hf h
  case h_6 => rw [nAllowed59_unrecognized p w (.inl hf) h]; rfl
  case h_9 => exact decodeFamily8_unrecognized p w hf h
  case h_10 => rw [nAllowed59_unrecognized p w (.inr hf) h]; rfl
  case h_15 => exact decodeFamilyE_unrecognized p w hf h
  case h_16 =>
    have hlt := (fieldF w).isLt
    have hF : (fieldF w).toNat = 0xF := by simp only [imp_false] at *; omega
    exact decodeFamilyF_unrecognized p w hF h
  all_goals
    have hf' : (w.extractLsb' 12 4).toNat = _ := hf
    simp [unrecognizedWord, hf'] at h

/-! ## Bytes of a word (R51, R54) -/

theorem joinBytes_toNat (hi lo : Byte) : (joinBytes hi lo).toNat = 0x100 * hi.toNat + lo.toNat := append_toNat hi lo

theorem highByte_toNat (w : Word) : (highByte w).toNat = w.toNat / 0x100 := by
  have := w.isLt
  simp only [highByte, BitVec.extractLsb'_toNat, Nat.shiftRight_eq_div_pow]; omega

theorem lowByte_toNat (w : Word) : (lowByte w).toNat = w.toNat % 0x100 := by
  simp only [lowByte, BitVec.extractLsb'_toNat, Nat.shiftRight_eq_div_pow]; omega

@[simp] theorem joinBytes_split (w : Word) : joinBytes (highByte w) (lowByte w) = w := by
  apply BitVec.eq_of_toNat_eq; rw [joinBytes_toNat, highByte_toNat, lowByte_toNat]; omega

@[simp] theorem highByte_joinBytes (hi lo : Byte) : highByte (joinBytes hi lo) = hi := by
  apply BitVec.eq_of_toNat_eq; rw [highByte_toNat, joinBytes_toNat]; omega

@[simp] theorem lowByte_joinBytes (hi lo : Byte) : lowByte (joinBytes hi lo) = lo := by
  apply BitVec.eq_of_toNat_eq; rw [lowByte_toNat, joinBytes_toNat]; omega

/-- The word of memory that `State.fetch16` combines is the word the statements name. -/
theorem joinBytes_eq_wordAt (s : Machine.State) (a : Nat) : joinBytes (s.byteAt a) (s.byteAt (a + 1)) = s.wordAt a := by
  apply BitVec.eq_of_toNat_eq
  rw [joinBytes_toNat, Machine.State.wordAt, BitVec.toNat_ofNat]
  omega

end Sys2Proof
end

