-- ==== Sys2Proof/Laws/State.lean ====
section
/-! SUPPORT. One lemma per field per update of the state, true by rfl, so that no later proof unfolds an update. -/

namespace Sys2Proof.Machine

/-! ## `State.storeByte` -/

@[simp] theorem State.storeByte_mem (s : State) (a : Nat) (v : Byte) : (s.storeByte a v).mem = Memory.write (resetByte s.params) s.mem a v := rfl
@[simp] theorem State.storeByte_V (s : State) (a : Nat) (v : Byte) : (s.storeByte a v).V = s.V := rfl
@[simp] theorem State.storeByte_I (s : State) (a : Nat) (v : Byte) : (s.storeByte a v).I = s.I := rfl
@[simp] theorem State.storeByte_pc (s : State) (a : Nat) (v : Byte) : (s.storeByte a v).pc = s.pc := rfl
@[simp] theorem State.storeByte_stack (s : State) (a : Nat) (v : Byte) : (s.storeByte a v).stack = s.stack := rfl
@[simp] theorem State.storeByte_sp (s : State) (a : Nat) (v : Byte) : (s.storeByte a v).sp = s.sp := rfl
@[simp] theorem State.storeByte_DT (s : State) (a : Nat) (v : Byte) : (s.storeByte a v).DT = s.DT := rfl
@[simp] theorem State.storeByte_ST (s : State) (a : Nat) (v : Byte) : (s.storeByte a v).ST = s.ST := rfl
@[simp] theorem State.storeByte_paused (s : State) (a : Nat) (v : Byte) : (s.storeByte a v).paused = s.paused := rfl
@[simp] theorem State.storeByte_target (s : State) (a : Nat) (v : Byte) : (s.storeByte a v).target = s.target := rfl
@[simp] theorem State.storeByte_fb (s : State) (a : Nat) (v : Byte) : (s.storeByte a v).fb = s.fb := rfl
@[simp] theorem State.storeByte_redraw (s : State) (a : Nat) (v : Byte) : (s.storeByte a v).redraw = s.redraw := rfl
@[simp] theorem State.storeByte_fault (s : State) (a : Nat) (v : Byte) : (s.storeByte a v).fault = s.fault := rfl
@[simp] theorem State.storeByte_params (s : State) (a : Nat) (v : Byte) : (s.storeByte a v).params = s.params := rfl
@[simp] theorem State.storeByte_inp (s : State) (a : Nat) (v : Byte) : (s.storeByte a v).inp = s.inp := rfl
@[simp] theorem State.storeByte_agenda (s : State) (a : Nat) (v : Byte) : (s.storeByte a v).agenda = s.agenda := rfl
@[simp] theorem State.storeByte_draws (s : State) (a : Nat) (v : Byte) : (s.storeByte a v).draws = s.draws := rfl
@[simp] theorem State.storeByte_out (s : State) (a : Nat) (v : Byte) : (s.storeByte a v).out = s.out := rfl

/-! ## `State.setV` -/

@[simp] theorem State.setV_mem (s : State) (x : Reg) (v : Byte) : (s.setV x v).mem = s.mem := rfl
@[simp] theorem State.setV_V (s : State) (x : Reg) (v : Byte) : (s.setV x v).V = s.V.set x v := rfl
@[simp] theorem State.setV_I (s : State) (x : Reg) (v : Byte) : (s.setV x v).I = s.I := rfl
@[simp] theorem State.setV_pc (s : State) (x : Reg) (v : Byte) : (s.setV x v).pc = s.pc := rfl
@[simp] theorem State.setV_stack (s : State) (x : Reg) (v : Byte) : (s.setV x v).stack = s.stack := rfl
@[simp] theorem State.setV_sp (s : State) (x : Reg) (v : Byte) : (s.setV x v).sp = s.sp := rfl
@[simp] theorem State.setV_DT (s : State) (x : Reg) (v : Byte) : (s.setV x v).DT = s.DT := rfl
@[simp] theorem State.setV_ST (s : State) (x : Reg) (v : Byte) : (s.setV x v).ST = s.ST := rfl
@[simp] theorem State.setV_paused (s : State) (x : Reg) (v : Byte) : (s.setV x v).paused = s.paused := rfl
@[simp] theorem State.setV_target (s : State) (x : Reg) (v : Byte) : (s.setV x v).target = s.target := rfl
@[simp] theorem State.setV_fb (s : State) (x : Reg) (v : Byte) : (s.setV x v).fb = s.fb := rfl
@[simp] theorem State.setV_redraw (s : State) (x : Reg) (v : Byte) : (s.setV x v).redraw = s.redraw := rfl
@[simp] theorem State.setV_fault (s : State) (x : Reg) (v : Byte) : (s.setV x v).fault = s.fault := rfl
@[simp] theorem State.setV_params (s : State) (x : Reg) (v : Byte) : (s.setV x v).params = s.params := rfl
@[simp] theorem State.setV_inp (s : State) (x : Reg) (v : Byte) : (s.setV x v).inp = s.inp := rfl
@[simp] theorem State.setV_agenda (s : State) (x : Reg) (v : Byte) : (s.setV x v).agenda = s.agenda := rfl
@[simp] theorem State.setV_draws (s : State) (x : Reg) (v : Byte) : (s.setV x v).draws = s.draws := rfl
@[simp] theorem State.setV_out (s : State) (x : Reg) (v : Byte) : (s.setV x v).out = s.out := rfl

/-! ## `State.setI` -/

@[simp] theorem State.setI_mem (s : State) (v : Word) : (s.setI v).mem = s.mem := rfl
@[simp] theorem State.setI_V (s : State) (v : Word) : (s.setI v).V = s.V := rfl
@[simp] theorem State.setI_I (s : State) (v : Word) : (s.setI v).I = v := rfl
@[simp] theorem State.setI_pc (s : State) (v : Word) : (s.setI v).pc = s.pc := rfl
@[simp] theorem State.setI_stack (s : State) (v : Word) : (s.setI v).stack = s.stack := rfl
@[simp] theorem State.setI_sp (s : State) (v : Word) : (s.setI v).sp = s.sp := rfl
@[simp] theorem State.setI_DT (s : State) (v : Word) : (s.setI v).DT = s.DT := rfl
@[simp] theorem State.setI_ST (s : State) (v : Word) : (s.setI v).ST = s.ST := rfl
@[simp] theorem State.setI_paused (s : State) (v : Word) : (s.setI v).paused = s.paused := rfl
@[simp] theorem State.setI_target (s : State) (v : Word) : (s.setI v).target = s.target := rfl
@[simp] theorem State.setI_fb (s : State) (v : Word) : (s.setI v).fb = s.fb := rfl
@[simp] theorem State.setI_redraw (s : State) (v : Word) : (s.setI v).redraw = s.redraw := rfl
@[simp] theorem State.setI_fault (s : State) (v : Word) : (s.setI v).fault = s.fault := rfl
@[simp] theorem State.setI_params (s : State) (v : Word) : (s.setI v).params = s.params := rfl
@[simp] theorem State.setI_inp (s : State) (v : Word) : (s.setI v).inp = s.inp := rfl
@[simp] theorem State.setI_agenda (s : State) (v : Word) : (s.setI v).agenda = s.agenda := rfl
@[simp] theorem State.setI_draws (s : State) (v : Word) : (s.setI v).draws = s.draws := rfl
@[simp] theorem State.setI_out (s : State) (v : Word) : (s.setI v).out = s.out := rfl

/-! ## `State.setPc` -/

@[simp] theorem State.setPc_mem (s : State) (a : Word) : (s.setPc a).mem = s.mem := rfl
@[simp] theorem State.setPc_V (s : State) (a : Word) : (s.setPc a).V = s.V := rfl
@[simp] theorem State.setPc_I (s : State) (a : Word) : (s.setPc a).I = s.I := rfl
@[simp] theorem State.setPc_pc (s : State) (a : Word) : (s.setPc a).pc = a := rfl
@[simp] theorem State.setPc_stack (s : State) (a : Word) : (s.setPc a).stack = s.stack := rfl
@[simp] theorem State.setPc_sp (s : State) (a : Word) : (s.setPc a).sp = s.sp := rfl
@[simp] theorem State.setPc_DT (s : State) (a : Word) : (s.setPc a).DT = s.DT := rfl
@[simp] theorem State.setPc_ST (s : State) (a : Word) : (s.setPc a).ST = s.ST := rfl
@[simp] theorem State.setPc_paused (s : State) (a : Word) : (s.setPc a).paused = s.paused := rfl
@[simp] theorem State.setPc_target (s : State) (a : Word) : (s.setPc a).target = s.target := rfl
@[simp] theorem State.setPc_fb (s : State) (a : Word) : (s.setPc a).fb = s.fb := rfl
@[simp] theorem State.setPc_redraw (s : State) (a : Word) : (s.setPc a).redraw = s.redraw := rfl
@[simp] theorem State.setPc_fault (s : State) (a : Word) : (s.setPc a).fault = s.fault := rfl
@[simp] theorem State.setPc_params (s : State) (a : Word) : (s.setPc a).params = s.params := rfl
@[simp] theorem State.setPc_inp (s : State) (a : Word) : (s.setPc a).inp = s.inp := rfl
@[simp] theorem State.setPc_agenda (s : State) (a : Word) : (s.setPc a).agenda = s.agenda := rfl
@[simp] theorem State.setPc_draws (s : State) (a : Word) : (s.setPc a).draws = s.draws := rfl
@[simp] theorem State.setPc_out (s : State) (a : Word) : (s.setPc a).out = s.out := rfl

/-! ## `State.push` -/

@[simp] theorem State.push_mem (s : State) (a : Word) : (s.push a).mem = s.mem := rfl
@[simp] theorem State.push_V (s : State) (a : Word) : (s.push a).V = s.V := rfl
@[simp] theorem State.push_I (s : State) (a : Word) : (s.push a).I = s.I := rfl
@[simp] theorem State.push_pc (s : State) (a : Word) : (s.push a).pc = s.pc := rfl
@[simp] theorem State.push_stack (s : State) (a : Word) : (s.push a).stack = s.stack.setIfInBounds s.sp a := rfl
@[simp] theorem State.push_sp (s : State) (a : Word) : (s.push a).sp = s.sp + 1 := rfl
@[simp] theorem State.push_DT (s : State) (a : Word) : (s.push a).DT = s.DT := rfl
@[simp] theorem State.push_ST (s : State) (a : Word) : (s.push a).ST = s.ST := rfl
@[simp] theorem State.push_paused (s : State) (a : Word) : (s.push a).paused = s.paused := rfl
@[simp] theorem State.push_target (s : State) (a : Word) : (s.push a).target = s.target := rfl
@[simp] theorem State.push_fb (s : State) (a : Word) : (s.push a).fb = s.fb := rfl
@[simp] theorem State.push_redraw (s : State) (a : Word) : (s.push a).redraw = s.redraw := rfl
@[simp] theorem State.push_fault (s : State) (a : Word) : (s.push a).fault = s.fault := rfl
@[simp] theorem State.push_params (s : State) (a : Word) : (s.push a).params = s.params := rfl
@[simp] theorem State.push_inp (s : State) (a : Word) : (s.push a).inp = s.inp := rfl
@[simp] theorem State.push_agenda (s : State) (a : Word) : (s.push a).agenda = s.agenda := rfl
@[simp] theorem State.push_draws (s : State) (a : Word) : (s.push a).draws = s.draws := rfl
@[simp] theorem State.push_out (s : State) (a : Word) : (s.push a).out = s.out := rfl

/-! ## `State.setSp` -/

@[simp] theorem State.setSp_mem (s : State) (n : Nat) : (s.setSp n).mem = s.mem := rfl
@[simp] theorem State.setSp_V (s : State) (n : Nat) : (s.setSp n).V = s.V := rfl
@[simp] theorem State.setSp_I (s : State) (n : Nat) : (s.setSp n).I = s.I := rfl
@[simp] theorem State.setSp_pc (s : State) (n : Nat) : (s.setSp n).pc = s.pc := rfl
@[simp] theorem State.setSp_stack (s : State) (n : Nat) : (s.setSp n).stack = s.stack := rfl
@[simp] theorem State.setSp_sp (s : State) (n : Nat) : (s.setSp n).sp = n := rfl
@[simp] theorem State.setSp_DT (s : State) (n : Nat) : (s.setSp n).DT = s.DT := rfl
@[simp] theorem State.setSp_ST (s : State) (n : Nat) : (s.setSp n).ST = s.ST := rfl
@[simp] theorem State.setSp_paused (s : State) (n : Nat) : (s.setSp n).paused = s.paused := rfl
@[simp] theorem State.setSp_target (s : State) (n : Nat) : (s.setSp n).target = s.target := rfl
@[simp] theorem State.setSp_fb (s : State) (n : Nat) : (s.setSp n).fb = s.fb := rfl
@[simp] theorem State.setSp_redraw (s : State) (n : Nat) : (s.setSp n).redraw = s.redraw := rfl
@[simp] theorem State.setSp_fault (s : State) (n : Nat) : (s.setSp n).fault = s.fault := rfl
@[simp] theorem State.setSp_params (s : State) (n : Nat) : (s.setSp n).params = s.params := rfl
@[simp] theorem State.setSp_inp (s : State) (n : Nat) : (s.setSp n).inp = s.inp := rfl
@[simp] theorem State.setSp_agenda (s : State) (n : Nat) : (s.setSp n).agenda = s.agenda := rfl
@[simp] theorem State.setSp_draws (s : State) (n : Nat) : (s.setSp n).draws = s.draws := rfl
@[simp] theorem State.setSp_out (s : State) (n : Nat) : (s.setSp n).out = s.out := rfl

/-! ## `State.setDT` -/

@[simp] theorem State.setDT_mem (s : State) (v : Byte) : (s.setDT v).mem = s.mem := rfl
@[simp] theorem State.setDT_V (s : State) (v : Byte) : (s.setDT v).V = s.V := rfl
@[simp] theorem State.setDT_I (s : State) (v : Byte) : (s.setDT v).I = s.I := rfl
@[simp] theorem State.setDT_pc (s : State) (v : Byte) : (s.setDT v).pc = s.pc := rfl
@[simp] theorem State.setDT_stack (s : State) (v : Byte) : (s.setDT v).stack = s.stack := rfl
@[simp] theorem State.setDT_sp (s : State) (v : Byte) : (s.setDT v).sp = s.sp := rfl
@[simp] theorem State.setDT_DT (s : State) (v : Byte) : (s.setDT v).DT = v := rfl
@[simp] theorem State.setDT_ST (s : State) (v : Byte) : (s.setDT v).ST = s.ST := rfl
@[simp] theorem State.setDT_paused (s : State) (v : Byte) : (s.setDT v).paused = s.paused := rfl
@[simp] theorem State.setDT_target (s : State) (v : Byte) : (s.setDT v).target = s.target := rfl
@[simp] theorem State.setDT_fb (s : State) (v : Byte) : (s.setDT v).fb = s.fb := rfl
@[simp] theorem State.setDT_redraw (s : State) (v : Byte) : (s.setDT v).redraw = s.redraw := rfl
@[simp] theorem State.setDT_fault (s : State) (v : Byte) : (s.setDT v).fault = s.fault := rfl
@[simp] theorem State.setDT_params (s : State) (v : Byte) : (s.setDT v).params = s.params := rfl
@[simp] theorem State.setDT_inp (s : State) (v : Byte) : (s.setDT v).inp = s.inp := rfl
@[simp] theorem State.setDT_agenda (s : State) (v : Byte) : (s.setDT v).agenda = s.agenda := rfl
@[simp] theorem State.setDT_draws (s : State) (v : Byte) : (s.setDT v).draws = s.draws := rfl
@[simp] theorem State.setDT_out (s : State) (v : Byte) : (s.setDT v).out = s.out := rfl

/-! ## `State.setST` -/

@[simp] theorem State.setST_mem (s : State) (v : Byte) : (s.setST v).mem = s.mem := rfl
@[simp] theorem State.setST_V (s : State) (v : Byte) : (s.setST v).V = s.V := rfl
@[simp] theorem State.setST_I (s : State) (v : Byte) : (s.setST v).I = s.I := rfl
@[simp] theorem State.setST_pc (s : State) (v : Byte) : (s.setST v).pc = s.pc := rfl
@[simp] theorem State.setST_stack (s : State) (v : Byte) : (s.setST v).stack = s.stack := rfl
@[simp] theorem State.setST_sp (s : State) (v : Byte) : (s.setST v).sp = s.sp := rfl
@[simp] theorem State.setST_DT (s : State) (v : Byte) : (s.setST v).DT = s.DT := rfl
@[simp] theorem State.setST_ST (s : State) (v : Byte) : (s.setST v).ST = v := rfl
@[simp] theorem State.setST_paused (s : State) (v : Byte) : (s.setST v).paused = s.paused := rfl
@[simp] theorem State.setST_target (s : State) (v : Byte) : (s.setST v).target = s.target := rfl
@[simp] theorem State.setST_fb (s : State) (v : Byte) : (s.setST v).fb = s.fb := rfl
@[simp] theorem State.setST_redraw (s : State) (v : Byte) : (s.setST v).redraw = s.redraw := rfl
@[simp] theorem State.setST_fault (s : State) (v : Byte) : (s.setST v).fault = s.fault := rfl
@[simp] theorem State.setST_params (s : State) (v : Byte) : (s.setST v).params = s.params := rfl
@[simp] theorem State.setST_inp (s : State) (v : Byte) : (s.setST v).inp = s.inp := rfl
@[simp] theorem State.setST_agenda (s : State) (v : Byte) : (s.setST v).agenda = s.agenda := rfl
@[simp] theorem State.setST_draws (s : State) (v : Byte) : (s.setST v).draws = s.draws := rfl
@[simp] theorem State.setST_out (s : State) (v : Byte) : (s.setST v).out = s.out := rfl

/-! ## `State.setPause` -/

@[simp] theorem State.setPause_mem (s : State) (x : Reg) : (s.setPause x).mem = s.mem := rfl
@[simp] theorem State.setPause_V (s : State) (x : Reg) : (s.setPause x).V = s.V := rfl
@[simp] theorem State.setPause_I (s : State) (x : Reg) : (s.setPause x).I = s.I := rfl
@[simp] theorem State.setPause_pc (s : State) (x : Reg) : (s.setPause x).pc = s.pc := rfl
@[simp] theorem State.setPause_stack (s : State) (x : Reg) : (s.setPause x).stack = s.stack := rfl
@[simp] theorem State.setPause_sp (s : State) (x : Reg) : (s.setPause x).sp = s.sp := rfl
@[simp] theorem State.setPause_DT (s : State) (x : Reg) : (s.setPause x).DT = s.DT := rfl
@[simp] theorem State.setPause_ST (s : State) (x : Reg) : (s.setPause x).ST = s.ST := rfl
@[simp] theorem State.setPause_paused (s : State) (x : Reg) : (s.setPause x).paused = true := rfl
@[simp] theorem State.setPause_target (s : State) (x : Reg) : (s.setPause x).target = x := rfl
@[simp] theorem State.setPause_fb (s : State) (x : Reg) : (s.setPause x).fb = s.fb := rfl
@[simp] theorem State.setPause_redraw (s : State) (x : Reg) : (s.setPause x).redraw = s.redraw := rfl
@[simp] theorem State.setPause_fault (s : State) (x : Reg) : (s.setPause x).fault = s.fault := rfl
@[simp] theorem State.setPause_params (s : State) (x : Reg) : (s.setPause x).params = s.params := rfl
@[simp] theorem State.setPause_inp (s : State) (x : Reg) : (s.setPause x).inp = s.inp := rfl
@[simp] theorem State.setPause_agenda (s : State) (x : Reg) : (s.setPause x).agenda = s.agenda := rfl
@[simp] theorem State.setPause_draws (s : State) (x : Reg) : (s.setPause x).draws = s.draws := rfl
@[simp] theorem State.setPause_out (s : State) (x : Reg) : (s.setPause x).out = s.out := rfl

/-! ## `State.endPause` -/

@[simp] theorem State.endPause_mem (s : State) : (s.endPause).mem = s.mem := rfl
@[simp] theorem State.endPause_V (s : State) : (s.endPause).V = s.V := rfl
@[simp] theorem State.endPause_I (s : State) : (s.endPause).I = s.I := rfl
@[simp] theorem State.endPause_pc (s : State) : (s.endPause).pc = s.pc := rfl
@[simp] theorem State.endPause_stack (s : State) : (s.endPause).stack = s.stack := rfl
@[simp] theorem State.endPause_sp (s : State) : (s.endPause).sp = s.sp := rfl
@[simp] theorem State.endPause_DT (s : State) : (s.endPause).DT = s.DT := rfl
@[simp] theorem State.endPause_ST (s : State) : (s.endPause).ST = s.ST := rfl
@[simp] theorem State.endPause_paused (s : State) : (s.endPause).paused = false := rfl
@[simp] theorem State.endPause_target (s : State) : (s.endPause).target = s.target := rfl
@[simp] theorem State.endPause_fb (s : State) : (s.endPause).fb = s.fb := rfl
@[simp] theorem State.endPause_redraw (s : State) : (s.endPause).redraw = s.redraw := rfl
@[simp] theorem State.endPause_fault (s : State) : (s.endPause).fault = s.fault := rfl
@[simp] theorem State.endPause_params (s : State) : (s.endPause).params = s.params := rfl
@[simp] theorem State.endPause_inp (s : State) : (s.endPause).inp = s.inp := rfl
@[simp] theorem State.endPause_agenda (s : State) : (s.endPause).agenda = s.agenda := rfl
@[simp] theorem State.endPause_draws (s : State) : (s.endPause).draws = s.draws := rfl
@[simp] theorem State.endPause_out (s : State) : (s.endPause).out = s.out := rfl

/-! ## `State.ackRedraw` -/

@[simp] theorem State.ackRedraw_mem (s : State) : (s.ackRedraw).mem = s.mem := rfl
@[simp] theorem State.ackRedraw_V (s : State) : (s.ackRedraw).V = s.V := rfl
@[simp] theorem State.ackRedraw_I (s : State) : (s.ackRedraw).I = s.I := rfl
@[simp] theorem State.ackRedraw_pc (s : State) : (s.ackRedraw).pc = s.pc := rfl
@[simp] theorem State.ackRedraw_stack (s : State) : (s.ackRedraw).stack = s.stack := rfl
@[simp] theorem State.ackRedraw_sp (s : State) : (s.ackRedraw).sp = s.sp := rfl
@[simp] theorem State.ackRedraw_DT (s : State) : (s.ackRedraw).DT = s.DT := rfl
@[simp] theorem State.ackRedraw_ST (s : State) : (s.ackRedraw).ST = s.ST := rfl
@[simp] theorem State.ackRedraw_paused (s : State) : (s.ackRedraw).paused = s.paused := rfl
@[simp] theorem State.ackRedraw_target (s : State) : (s.ackRedraw).target = s.target := rfl
@[simp] theorem State.ackRedraw_fb (s : State) : (s.ackRedraw).fb = s.fb := rfl
@[simp] theorem State.ackRedraw_redraw (s : State) : (s.ackRedraw).redraw = false := rfl
@[simp] theorem State.ackRedraw_fault (s : State) : (s.ackRedraw).fault = s.fault := rfl
@[simp] theorem State.ackRedraw_params (s : State) : (s.ackRedraw).params = s.params := rfl
@[simp] theorem State.ackRedraw_inp (s : State) : (s.ackRedraw).inp = s.inp := rfl
@[simp] theorem State.ackRedraw_agenda (s : State) : (s.ackRedraw).agenda = s.agenda := rfl
@[simp] theorem State.ackRedraw_draws (s : State) : (s.ackRedraw).draws = s.draws := rfl
@[simp] theorem State.ackRedraw_out (s : State) : (s.ackRedraw).out = s.out := rfl

/-! ## `State.setFb` -/

@[simp] theorem State.setFb_mem (s : State) (fb : Bitmap) : (s.setFb fb).mem = s.mem := rfl
@[simp] theorem State.setFb_V (s : State) (fb : Bitmap) : (s.setFb fb).V = s.V := rfl
@[simp] theorem State.setFb_I (s : State) (fb : Bitmap) : (s.setFb fb).I = s.I := rfl
@[simp] theorem State.setFb_pc (s : State) (fb : Bitmap) : (s.setFb fb).pc = s.pc := rfl
@[simp] theorem State.setFb_stack (s : State) (fb : Bitmap) : (s.setFb fb).stack = s.stack := rfl
@[simp] theorem State.setFb_sp (s : State) (fb : Bitmap) : (s.setFb fb).sp = s.sp := rfl
@[simp] theorem State.setFb_DT (s : State) (fb : Bitmap) : (s.setFb fb).DT = s.DT := rfl
@[simp] theorem State.setFb_ST (s : State) (fb : Bitmap) : (s.setFb fb).ST = s.ST := rfl
@[simp] theorem State.setFb_paused (s : State) (fb : Bitmap) : (s.setFb fb).paused = s.paused := rfl
@[simp] theorem State.setFb_target (s : State) (fb : Bitmap) : (s.setFb fb).target = s.target := rfl
@[simp] theorem State.setFb_fb (s : State) (fb : Bitmap) : (s.setFb fb).fb = fb := rfl
@[simp] theorem State.setFb_redraw (s : State) (fb : Bitmap) : (s.setFb fb).redraw = true := rfl
@[simp] theorem State.setFb_fault (s : State) (fb : Bitmap) : (s.setFb fb).fault = s.fault := rfl
@[simp] theorem State.setFb_params (s : State) (fb : Bitmap) : (s.setFb fb).params = s.params := rfl
@[simp] theorem State.setFb_inp (s : State) (fb : Bitmap) : (s.setFb fb).inp = s.inp := rfl
@[simp] theorem State.setFb_agenda (s : State) (fb : Bitmap) : (s.setFb fb).agenda = s.agenda := rfl
@[simp] theorem State.setFb_draws (s : State) (fb : Bitmap) : (s.setFb fb).draws = s.draws := rfl
@[simp] theorem State.setFb_out (s : State) (fb : Bitmap) : (s.setFb fb).out = s.out := rfl

/-! ## `State.raiseFatal` -/

@[simp] theorem State.raiseFatal_mem (s : State) (c : FatalCode) : (s.raiseFatal c).mem = s.mem := rfl
@[simp] theorem State.raiseFatal_V (s : State) (c : FatalCode) : (s.raiseFatal c).V = s.V := rfl
@[simp] theorem State.raiseFatal_I (s : State) (c : FatalCode) : (s.raiseFatal c).I = s.I := rfl
@[simp] theorem State.raiseFatal_pc (s : State) (c : FatalCode) : (s.raiseFatal c).pc = s.pc := rfl
@[simp] theorem State.raiseFatal_stack (s : State) (c : FatalCode) : (s.raiseFatal c).stack = s.stack := rfl
@[simp] theorem State.raiseFatal_sp (s : State) (c : FatalCode) : (s.raiseFatal c).sp = s.sp := rfl
@[simp] theorem State.raiseFatal_DT (s : State) (c : FatalCode) : (s.raiseFatal c).DT = s.DT := rfl
@[simp] theorem State.raiseFatal_ST (s : State) (c : FatalCode) : (s.raiseFatal c).ST = s.ST := rfl
@[simp] theorem State.raiseFatal_paused (s : State) (c : FatalCode) : (s.raiseFatal c).paused = s.paused := rfl
@[simp] theorem State.raiseFatal_target (s : State) (c : FatalCode) : (s.raiseFatal c).target = s.target := rfl
@[simp] theorem State.raiseFatal_fb (s : State) (c : FatalCode) : (s.raiseFatal c).fb = s.fb := rfl
@[simp] theorem State.raiseFatal_redraw (s : State) (c : FatalCode) : (s.raiseFatal c).redraw = s.redraw := rfl
@[simp] theorem State.raiseFatal_fault (s : State) (c : FatalCode) : (s.raiseFatal c).fault = some c := rfl
@[simp] theorem State.raiseFatal_params (s : State) (c : FatalCode) : (s.raiseFatal c).params = s.params := rfl
@[simp] theorem State.raiseFatal_inp (s : State) (c : FatalCode) : (s.raiseFatal c).inp = s.inp := rfl
@[simp] theorem State.raiseFatal_agenda (s : State) (c : FatalCode) : (s.raiseFatal c).agenda = s.agenda := rfl
@[simp] theorem State.raiseFatal_draws (s : State) (c : FatalCode) : (s.raiseFatal c).draws = s.draws := rfl
@[simp] theorem State.raiseFatal_out (s : State) (c : FatalCode) : (s.raiseFatal c).out = s.out := rfl

/-! ## `State.setQuirk` -/

@[simp] theorem State.setQuirk_mem (s : State) (q : Bool) : (s.setQuirk q).mem = s.mem := rfl
@[simp] theorem State.setQuirk_V (s : State) (q : Bool) : (s.setQuirk q).V = s.V := rfl
@[simp] theorem State.setQuirk_I (s : State) (q : Bool) : (s.setQuirk q).I = s.I := rfl
@[simp] theorem State.setQuirk_pc (s : State) (q : Bool) : (s.setQuirk q).pc = s.pc := rfl
@[simp] theorem State.setQuirk_stack (s : State) (q : Bool) : (s.setQuirk q).stack = s.stack := rfl
@[simp] theorem State.setQuirk_sp (s : State) (q : Bool) : (s.setQuirk q).sp = s.sp := rfl
@[simp] theorem State.setQuirk_DT (s : State) (q : Bool) : (s.setQuirk q).DT = s.DT := rfl
@[simp] theorem State.setQuirk_ST (s : State) (q : Bool) : (s.setQuirk q).ST = s.ST := rfl
@[simp] theorem State.setQuirk_paused (s : State) (q : Bool) : (s.setQuirk q).paused = s.paused := rfl
@[simp] theorem State.setQuirk_target (s : State) (q : Bool) : (s.setQuirk q).target = s.target := rfl
@[simp] theorem State.setQuirk_fb (s : State) (q : Bool) : (s.setQuirk q).fb = s.fb := rfl
@[simp] theorem State.setQuirk_redraw (s : State) (q : Bool) : (s.setQuirk q).redraw = s.redraw := rfl
@[simp] theorem State.setQuirk_fault (s : State) (q : Bool) : (s.setQuirk q).fault = s.fault := rfl
@[simp] theorem State.setQuirk_params (s : State) (q : Bool) : (s.setQuirk q).params = { s.params with quirk := q } := rfl
@[simp] theorem State.setQuirk_inp (s : State) (q : Bool) : (s.setQuirk q).inp = s.inp := rfl
@[simp] theorem State.setQuirk_agenda (s : State) (q : Bool) : (s.setQuirk q).agenda = s.agenda := rfl
@[simp] theorem State.setQuirk_draws (s : State) (q : Bool) : (s.setQuirk q).draws = s.draws := rfl
@[simp] theorem State.setQuirk_out (s : State) (q : Bool) : (s.setQuirk q).out = s.out := rfl

/-! ## `State.setInp` -/

@[simp] theorem State.setInp_mem (s : State) (inp : Inputs) : (s.setInp inp).mem = s.mem := rfl
@[simp] theorem State.setInp_V (s : State) (inp : Inputs) : (s.setInp inp).V = s.V := rfl
@[simp] theorem State.setInp_I (s : State) (inp : Inputs) : (s.setInp inp).I = s.I := rfl
@[simp] theorem State.setInp_pc (s : State) (inp : Inputs) : (s.setInp inp).pc = s.pc := rfl
@[simp] theorem State.setInp_stack (s : State) (inp : Inputs) : (s.setInp inp).stack = s.stack := rfl
@[simp] theorem State.setInp_sp (s : State) (inp : Inputs) : (s.setInp inp).sp = s.sp := rfl
@[simp] theorem State.setInp_DT (s : State) (inp : Inputs) : (s.setInp inp).DT = s.DT := rfl
@[simp] theorem State.setInp_ST (s : State) (inp : Inputs) : (s.setInp inp).ST = s.ST := rfl
@[simp] theorem State.setInp_paused (s : State) (inp : Inputs) : (s.setInp inp).paused = s.paused := rfl
@[simp] theorem State.setInp_target (s : State) (inp : Inputs) : (s.setInp inp).target = s.target := rfl
@[simp] theorem State.setInp_fb (s : State) (inp : Inputs) : (s.setInp inp).fb = s.fb := rfl
@[simp] theorem State.setInp_redraw (s : State) (inp : Inputs) : (s.setInp inp).redraw = s.redraw := rfl
@[simp] theorem State.setInp_fault (s : State) (inp : Inputs) : (s.setInp inp).fault = s.fault := rfl
@[simp] theorem State.setInp_params (s : State) (inp : Inputs) : (s.setInp inp).params = s.params := rfl
@[simp] theorem State.setInp_inp (s : State) (inp : Inputs) : (s.setInp inp).inp = inp := rfl
@[simp] theorem State.setInp_agenda (s : State) (inp : Inputs) : (s.setInp inp).agenda = s.agenda := rfl
@[simp] theorem State.setInp_draws (s : State) (inp : Inputs) : (s.setInp inp).draws = s.draws := rfl
@[simp] theorem State.setInp_out (s : State) (inp : Inputs) : (s.setInp inp).out = s.out := rfl

/-! ## `State.popAgenda` -/

@[simp] theorem State.popAgenda_mem (s : State) : (s.popAgenda).mem = s.mem := rfl
@[simp] theorem State.popAgenda_V (s : State) : (s.popAgenda).V = s.V := rfl
@[simp] theorem State.popAgenda_I (s : State) : (s.popAgenda).I = s.I := rfl
@[simp] theorem State.popAgenda_pc (s : State) : (s.popAgenda).pc = s.pc := rfl
@[simp] theorem State.popAgenda_stack (s : State) : (s.popAgenda).stack = s.stack := rfl
@[simp] theorem State.popAgenda_sp (s : State) : (s.popAgenda).sp = s.sp := rfl
@[simp] theorem State.popAgenda_DT (s : State) : (s.popAgenda).DT = s.DT := rfl
@[simp] theorem State.popAgenda_ST (s : State) : (s.popAgenda).ST = s.ST := rfl
@[simp] theorem State.popAgenda_paused (s : State) : (s.popAgenda).paused = s.paused := rfl
@[simp] theorem State.popAgenda_target (s : State) : (s.popAgenda).target = s.target := rfl
@[simp] theorem State.popAgenda_fb (s : State) : (s.popAgenda).fb = s.fb := rfl
@[simp] theorem State.popAgenda_redraw (s : State) : (s.popAgenda).redraw = s.redraw := rfl
@[simp] theorem State.popAgenda_fault (s : State) : (s.popAgenda).fault = s.fault := rfl
@[simp] theorem State.popAgenda_params (s : State) : (s.popAgenda).params = s.params := rfl
@[simp] theorem State.popAgenda_inp (s : State) : (s.popAgenda).inp = s.inp := rfl
@[simp] theorem State.popAgenda_agenda (s : State) : (s.popAgenda).agenda = s.agenda.tail := rfl
@[simp] theorem State.popAgenda_draws (s : State) : (s.popAgenda).draws = s.draws := rfl
@[simp] theorem State.popAgenda_out (s : State) : (s.popAgenda).out = s.out := rfl

/-! ## `State.countDraw` -/

@[simp] theorem State.countDraw_mem (s : State) : (s.countDraw).mem = s.mem := rfl
@[simp] theorem State.countDraw_V (s : State) : (s.countDraw).V = s.V := rfl
@[simp] theorem State.countDraw_I (s : State) : (s.countDraw).I = s.I := rfl
@[simp] theorem State.countDraw_pc (s : State) : (s.countDraw).pc = s.pc := rfl
@[simp] theorem State.countDraw_stack (s : State) : (s.countDraw).stack = s.stack := rfl
@[simp] theorem State.countDraw_sp (s : State) : (s.countDraw).sp = s.sp := rfl
@[simp] theorem State.countDraw_DT (s : State) : (s.countDraw).DT = s.DT := rfl
@[simp] theorem State.countDraw_ST (s : State) : (s.countDraw).ST = s.ST := rfl
@[simp] theorem State.countDraw_paused (s : State) : (s.countDraw).paused = s.paused := rfl
@[simp] theorem State.countDraw_target (s : State) : (s.countDraw).target = s.target := rfl
@[simp] theorem State.countDraw_fb (s : State) : (s.countDraw).fb = s.fb := rfl
@[simp] theorem State.countDraw_redraw (s : State) : (s.countDraw).redraw = s.redraw := rfl
@[simp] theorem State.countDraw_fault (s : State) : (s.countDraw).fault = s.fault := rfl
@[simp] theorem State.countDraw_params (s : State) : (s.countDraw).params = s.params := rfl
@[simp] theorem State.countDraw_inp (s : State) : (s.countDraw).inp = s.inp := rfl
@[simp] theorem State.countDraw_agenda (s : State) : (s.countDraw).agenda = s.agenda := rfl
@[simp] theorem State.countDraw_draws (s : State) : (s.countDraw).draws = s.draws + 1 := rfl
@[simp] theorem State.countDraw_out (s : State) : (s.countDraw).out = s.out := rfl

/-! ## `State.emit` -/

@[simp] theorem State.emit_mem (s : State) (o : Output) : (s.emit o).mem = s.mem := rfl
@[simp] theorem State.emit_V (s : State) (o : Output) : (s.emit o).V = s.V := rfl
@[simp] theorem State.emit_I (s : State) (o : Output) : (s.emit o).I = s.I := rfl
@[simp] theorem State.emit_pc (s : State) (o : Output) : (s.emit o).pc = s.pc := rfl
@[simp] theorem State.emit_stack (s : State) (o : Output) : (s.emit o).stack = s.stack := rfl
@[simp] theorem State.emit_sp (s : State) (o : Output) : (s.emit o).sp = s.sp := rfl
@[simp] theorem State.emit_DT (s : State) (o : Output) : (s.emit o).DT = s.DT := rfl
@[simp] theorem State.emit_ST (s : State) (o : Output) : (s.emit o).ST = s.ST := rfl
@[simp] theorem State.emit_paused (s : State) (o : Output) : (s.emit o).paused = s.paused := rfl
@[simp] theorem State.emit_target (s : State) (o : Output) : (s.emit o).target = s.target := rfl
@[simp] theorem State.emit_fb (s : State) (o : Output) : (s.emit o).fb = s.fb := rfl
@[simp] theorem State.emit_redraw (s : State) (o : Output) : (s.emit o).redraw = s.redraw := rfl
@[simp] theorem State.emit_fault (s : State) (o : Output) : (s.emit o).fault = s.fault := rfl
@[simp] theorem State.emit_params (s : State) (o : Output) : (s.emit o).params = s.params := rfl
@[simp] theorem State.emit_inp (s : State) (o : Output) : (s.emit o).inp = s.inp := rfl
@[simp] theorem State.emit_agenda (s : State) (o : Output) : (s.emit o).agenda = s.agenda := rfl
@[simp] theorem State.emit_draws (s : State) (o : Output) : (s.emit o).draws = s.draws := rfl
@[simp] theorem State.emit_out (s : State) (o : Output) : (s.emit o).out = o :: s.out := rfl

/-! ## The updates that are another update by name -/

@[simp] theorem State.setVF_eq (s : State) (v : Byte) : s.setVF v = s.setV flagReg v := rfl
@[simp] theorem State.advancePc_eq (s : State) : s.advancePc = s.setPc (s.pc + 2) := rfl
@[simp] theorem State.skip_eq (s : State) : s.skip = s.setPc (s.pc + 2) := rfl
@[simp] theorem State.diag_eq (s : State) (d : Diag) : s.diag d = s.emit (.diag d) := rfl
@[simp] theorem State.clear_eq (s : State) : s.clear = s.setFb Bitmap.blank := rfl
theorem State.skipIf_eq (s : State) (c : Bool) : s.skipIf c = s.setPc (if c then s.pc + 2 else s.pc) := by cases c <;> rfl

/-! ## RESET (R37) -/

@[simp] theorem State.create_mem (p : Params) : (State.create p).mem = [] := rfl
@[simp] theorem State.create_V (p : Params) : (State.create p).V = Vector.replicate 16 0 := rfl
@[simp] theorem State.create_I (p : Params) : (State.create p).I = 0 := rfl
@[simp] theorem State.create_pc (p : Params) : (State.create p).pc = 0x200 := rfl
@[simp] theorem State.create_stack (p : Params) : (State.create p).stack = Vector.replicate stackDepth 0 := rfl
@[simp] theorem State.create_sp (p : Params) : (State.create p).sp = 0 := rfl
@[simp] theorem State.create_DT (p : Params) : (State.create p).DT = 0 := rfl
@[simp] theorem State.create_ST (p : Params) : (State.create p).ST = 0 := rfl
@[simp] theorem State.create_paused (p : Params) : (State.create p).paused = false := rfl
@[simp] theorem State.create_target (p : Params) : (State.create p).target = 0 := rfl
@[simp] theorem State.create_fb (p : Params) : (State.create p).fb = Bitmap.blank := rfl
@[simp] theorem State.create_redraw (p : Params) : (State.create p).redraw = false := rfl
@[simp] theorem State.create_fault (p : Params) : (State.create p).fault = none := rfl
@[simp] theorem State.create_params (p : Params) : (State.create p).params = p := rfl
@[simp] theorem State.create_inp (p : Params) : (State.create p).inp = Inputs.none := rfl
@[simp] theorem State.create_agenda (p : Params) : (State.create p).agenda = [] := rfl
@[simp] theorem State.create_draws (p : Params) : (State.create p).draws = 0 := rfl
@[simp] theorem State.create_out (p : Params) : (State.create p).out = [] := rfl

end Sys2Proof.Machine
end

