-- ==== Sys2Proof/Laws/Memory.lean ====
section
/-! SUPPORT. The laws of memory: read after write, and the canonical form every write keeps. -/

namespace Sys2Proof.Machine

/-! ## Reading after writing -/

/-- A write leaves every other cell alone, in any list. -/
theorem Memory.read_write_of_ne (fill : Nat → Byte) (m : Memory) (a b : Nat) (v : Byte) (hb : b ≠ a) :
    Memory.read fill (Memory.write fill m a v) b = Memory.read fill m b := by
  induction m with
  | nil => simp only [Memory.write]; split <;> simp [Memory.read, hb]
  | cons c m ih =>
    obtain ⟨k, u⟩ := c
    simp only [Memory.write]
    split
    · split <;> simp [Memory.read, hb]
    · split
      · subst a; split <;> simp [Memory.read, hb]
      · simp [Memory.read, ih]

/-- Below its first address a canonical memory reads as its image. -/
theorem Memory.read_below (fill : Nat → Byte) (m : Memory) (lo : Nat) (h : Memory.wfFrom fill lo m = true) (c : Nat)
    (hc : c < lo) : Memory.read fill m c = fill c := by
  induction m generalizing lo with
  | nil => rfl
  | cons d m ih =>
    obtain ⟨k, u⟩ := d
    simp only [Memory.wfFrom, Bool.and_eq_true, decide_eq_true_eq] at h
    rw [Memory.read, if_neg (by omega)]
    exact ih (k + 1) h.2 (by omega)

/-- In a canonical memory the written cell reads as the value written. -/
theorem Memory.read_write_self (fill : Nat → Byte) (m : Memory) (a : Nat) (v : Byte) (lo : Nat)
    (h : Memory.wfFrom fill lo m = true) : Memory.read fill (Memory.write fill m a v) a = v := by
  induction m generalizing lo with
  | nil => simp only [Memory.write]; split <;> simp_all [Memory.read]
  | cons c m ih =>
    obtain ⟨k, u⟩ := c
    simp only [Memory.wfFrom, Bool.and_eq_true, decide_eq_true_eq] at h
    simp only [Memory.write]
    split
    · split
      · rw [Memory.read, if_neg (by omega), Memory.read_below fill m (k + 1) h.2 a (by omega)]; exact Eq.symm ‹_›
      · simp [Memory.read]
    · split
      · subst a
        split
        · rw [Memory.read_below fill m (k + 1) h.2 k (by omega)]; exact Eq.symm ‹_›
        · simp [Memory.read]
      · rw [Memory.read, if_neg ‹_›]; exact ih (k + 1) h.2

/-- Read after write, in a canonical memory. -/
theorem Memory.read_write (fill : Nat → Byte) (m : Memory) (a b : Nat) (v : Byte) (h : Memory.wf fill m = true) :
    Memory.read fill (Memory.write fill m a v) b = if b = a then v else Memory.read fill m b := by
  split
  · subst b; exact Memory.read_write_self fill m a v 0 h
  · exact Memory.read_write_of_ne fill m a b v ‹_›

/-! ## The canonical form -/

/-- A canonical memory above `hi` is one above any lower bound. -/
theorem Memory.wfFrom_mono (fill : Nat → Byte) (m : Memory) (hi lo : Nat) (hle : lo ≤ hi)
    (h : Memory.wfFrom fill hi m = true) : Memory.wfFrom fill lo m = true := by
  cases m with
  | nil => rfl
  | cons c m =>
    simp only [Memory.wfFrom, Bool.and_eq_true, decide_eq_true_eq] at h ⊢
    exact ⟨⟨⟨by omega, h.1.1.2⟩, h.1.2⟩, h.2⟩

/-- A write at or above `lo` keeps the form above `lo`. -/
theorem Memory.write_wfFrom (fill : Nat → Byte) (m : Memory) (a : Nat) (v : Byte) (lo : Nat) (hlo : lo ≤ a)
    (ha : a < memSize) (h : Memory.wfFrom fill lo m = true) : Memory.wfFrom fill lo (Memory.write fill m a v) = true := by
  induction m generalizing lo with
  | nil => simp only [Memory.write]; split <;> simp_all [Memory.wfFrom]
  | cons c m ih =>
    obtain ⟨k, u⟩ := c
    have hc := h
    simp only [Memory.wfFrom, Bool.and_eq_true, decide_eq_true_eq, bne_iff_ne, ne_eq] at hc
    simp only [Memory.write]
    split
    · split
      · exact h
      · simp_all [Memory.wfFrom]
    · split
      · subst a
        split
        · exact Memory.wfFrom_mono fill m (k + 1) lo (by omega) hc.2
        · simp_all [Memory.wfFrom]
      · simp only [Memory.wfFrom, Bool.and_eq_true, decide_eq_true_eq, bne_iff_ne, ne_eq]
        exact ⟨hc.1, ih (k + 1) (by omega) hc.2⟩

/-- Every write to a cell of the machine keeps the canonical form. -/
theorem Memory.write_wf (fill : Nat → Byte) (m : Memory) (a : Nat) (v : Byte) (ha : a < memSize)
    (h : Memory.wf fill m = true) : Memory.wf fill (Memory.write fill m a v) = true :=
  Memory.write_wfFrom fill m a v 0 (Nat.zero_le a) ha h

/-- Canonical memories that read alike everywhere are equal lists. -/
theorem Memory.ext_of_wfFrom (fill : Nat → Byte) (m n : Memory) (lo : Nat) (hm : Memory.wfFrom fill lo m = true)
    (hn : Memory.wfFrom fill lo n = true) (h : ∀ a, Memory.read fill m a = Memory.read fill n a) : m = n := by
  induction m generalizing lo n with
  | nil =>
    cases n with
    | nil => rfl
    | cons d n =>
      obtain ⟨k, u⟩ := d
      have := h k
      simp_all [Memory.wfFrom, Memory.read]
  | cons c m ih =>
    obtain ⟨k, u⟩ := c
    have hm' := hm
    simp only [Memory.wfFrom, Bool.and_eq_true, decide_eq_true_eq, bne_iff_ne, ne_eq] at hm'
    cases n with
    | nil =>
      have := h k
      simp_all [Memory.read]
    | cons d n =>
      obtain ⟨j, w⟩ := d
      have hn' := hn
      simp only [Memory.wfFrom, Bool.and_eq_true, decide_eq_true_eq, bne_iff_ne, ne_eq] at hn'
      have hkj : k = j := by
        rcases Nat.lt_trichotomy k j with hlt | heq | hgt
        · have hk := h k
          simp only [Memory.read, if_true] at hk
          rw [if_neg (by omega), Memory.read_below fill n (j + 1) hn'.2 k (by omega)] at hk
          exact absurd hk hm'.1.2
        · exact heq
        · have hj := h j
          simp only [Memory.read, if_true] at hj
          rw [if_neg (by omega), Memory.read_below fill m (k + 1) hm'.2 j (by omega)] at hj
          exact absurd hj.symm hn'.1.2
      subst hkj
      have huw : u = w := by simpa [Memory.read] using h k
      subst huw
      rw [ih n (k + 1) hm'.2 hn'.2]
      intro a
      by_cases ha : a = k
      · subst ha
        rw [Memory.read_below fill m (a + 1) hm'.2 a (by omega), Memory.read_below fill n (a + 1) hn'.2 a (by omega)]
      · simpa [Memory.read, ha] using h a

/-! ## The same laws of the state -/

/-- The canonical form of a state's memory. -/
abbrev State.memWf (s : State) : Prop := Memory.wf (resetByte s.params) s.mem = true

theorem State.byteAt_storeByte_of_ne (s : State) (a b : Nat) (v : Byte) (h : b ≠ a) :
    (s.storeByte a v).byteAt b = s.byteAt b := Memory.read_write_of_ne _ _ _ _ _ h

theorem State.byteAt_storeByte (s : State) (a b : Nat) (v : Byte) (h : s.memWf) :
    (s.storeByte a v).byteAt b = if b = a then v else s.byteAt b := Memory.read_write _ _ _ _ _ h

theorem State.storeByte_memWf (s : State) (a : Nat) (v : Byte) (ha : a < memSize) (h : s.memWf) :
    (s.storeByte a v).memWf := Memory.write_wf _ _ _ _ ha h

/-- A cell reads the same in two states with the same memory and parameters. -/
theorem State.byteAt_congr {s t : State} (hm : t.mem = s.mem) (hp : t.params = s.params) (a : Nat) :
    t.byteAt a = s.byteAt a := by rw [State.byteAt, State.byteAt, hm, hp]

/-- At RESET every cell reads as the image (R37). -/
@[simp] theorem State.create_byteAt (p : Params) (a : Nat) : (State.create p).byteAt a = resetByte p a := rfl

end Sys2Proof.Machine
end

