-- ==== Sys2Proof/Laws/Ops.lean ====
section
/-! SUPPORT. One lemma per shared operation that says once everything it does: registers, cells under every update,
lists of stores and loads, data accesses, and the end of an operation. -/

namespace Sys2Proof.Machine

/-! ## Registers -/

/-- A register after a register write. -/
theorem State.getV_setV (s : State) (x r : Reg) (v : Byte) : (s.setV x v).getV r = if r = x then v else s.getV r := by
  simp only [State.getV, State.setV, Fin.getElem_fin, Vector.getElem_set, Fin.ext_iff, eq_comm]

@[simp] theorem State.getV_setV_self (s : State) (x : Reg) (v : Byte) : (s.setV x v).getV x = v := by
  simp [State.getV_setV]

@[simp] theorem State.getV_storeByte (s : State) (a : Nat) (v : Byte) (r : Reg) : (s.storeByte a v).getV r = s.getV r := rfl
@[simp] theorem State.getV_setI (s : State) (v : Word) (r : Reg) : (s.setI v).getV r = s.getV r := rfl
@[simp] theorem State.getV_setPc (s : State) (v : Word) (r : Reg) : (s.setPc v).getV r = s.getV r := rfl
@[simp] theorem State.getV_push (s : State) (v : Word) (r : Reg) : (s.push v).getV r = s.getV r := rfl
@[simp] theorem State.getV_setSp (s : State) (n : Nat) (r : Reg) : (s.setSp n).getV r = s.getV r := rfl
@[simp] theorem State.getV_setDT (s : State) (v : Byte) (r : Reg) : (s.setDT v).getV r = s.getV r := rfl
@[simp] theorem State.getV_setST (s : State) (v : Byte) (r : Reg) : (s.setST v).getV r = s.getV r := rfl
@[simp] theorem State.getV_setPause (s : State) (x r : Reg) : (s.setPause x).getV r = s.getV r := rfl
@[simp] theorem State.getV_endPause (s : State) (r : Reg) : s.endPause.getV r = s.getV r := rfl
@[simp] theorem State.getV_ackRedraw (s : State) (r : Reg) : s.ackRedraw.getV r = s.getV r := rfl
@[simp] theorem State.getV_setFb (s : State) (fb : Bitmap) (r : Reg) : (s.setFb fb).getV r = s.getV r := rfl
@[simp] theorem State.getV_raiseFatal (s : State) (c : FatalCode) (r : Reg) : (s.raiseFatal c).getV r = s.getV r := rfl
@[simp] theorem State.getV_setQuirk (s : State) (q : Bool) (r : Reg) : (s.setQuirk q).getV r = s.getV r := rfl
@[simp] theorem State.getV_setInp (s : State) (i : Inputs) (r : Reg) : (s.setInp i).getV r = s.getV r := rfl
@[simp] theorem State.getV_popAgenda (s : State) (r : Reg) : s.popAgenda.getV r = s.getV r := rfl
@[simp] theorem State.getV_countDraw (s : State) (r : Reg) : s.countDraw.getV r = s.getV r := rfl
@[simp] theorem State.getV_emit (s : State) (o : Output) (r : Reg) : (s.emit o).getV r = s.getV r := rfl

/-! ## Cells under the updates that are no store -/

@[simp] theorem State.byteAt_setV (s : State) (x : Reg) (v : Byte) (a : Nat) : (s.setV x v).byteAt a = s.byteAt a := rfl
@[simp] theorem State.byteAt_setI (s : State) (v : Word) (a : Nat) : (s.setI v).byteAt a = s.byteAt a := rfl
@[simp] theorem State.byteAt_setPc (s : State) (v : Word) (a : Nat) : (s.setPc v).byteAt a = s.byteAt a := rfl
@[simp] theorem State.byteAt_push (s : State) (v : Word) (a : Nat) : (s.push v).byteAt a = s.byteAt a := rfl
@[simp] theorem State.byteAt_setSp (s : State) (n a : Nat) : (s.setSp n).byteAt a = s.byteAt a := rfl
@[simp] theorem State.byteAt_setDT (s : State) (v : Byte) (a : Nat) : (s.setDT v).byteAt a = s.byteAt a := rfl
@[simp] theorem State.byteAt_setST (s : State) (v : Byte) (a : Nat) : (s.setST v).byteAt a = s.byteAt a := rfl
@[simp] theorem State.byteAt_setPause (s : State) (x : Reg) (a : Nat) : (s.setPause x).byteAt a = s.byteAt a := rfl
@[simp] theorem State.byteAt_endPause (s : State) (a : Nat) : s.endPause.byteAt a = s.byteAt a := rfl
@[simp] theorem State.byteAt_ackRedraw (s : State) (a : Nat) : s.ackRedraw.byteAt a = s.byteAt a := rfl
@[simp] theorem State.byteAt_setFb (s : State) (fb : Bitmap) (a : Nat) : (s.setFb fb).byteAt a = s.byteAt a := rfl
@[simp] theorem State.byteAt_raiseFatal (s : State) (c : FatalCode) (a : Nat) : (s.raiseFatal c).byteAt a = s.byteAt a := rfl
@[simp] theorem State.byteAt_setQuirk (s : State) (q : Bool) (a : Nat) : (s.setQuirk q).byteAt a = s.byteAt a := rfl
@[simp] theorem State.byteAt_setInp (s : State) (i : Inputs) (a : Nat) : (s.setInp i).byteAt a = s.byteAt a := rfl
@[simp] theorem State.byteAt_popAgenda (s : State) (a : Nat) : s.popAgenda.byteAt a = s.byteAt a := rfl
@[simp] theorem State.byteAt_countDraw (s : State) (a : Nat) : s.countDraw.byteAt a = s.byteAt a := rfl
@[simp] theorem State.byteAt_emit (s : State) (o : Output) (a : Nat) : (s.emit o).byteAt a = s.byteAt a := rfl

/-! ## A key query changes only the output tape (R200, R221) -/

@[simp] theorem State.keyQueried_mem (s : State) (k : Byte) : (s.keyQueried k).mem = s.mem := by
  unfold State.keyQueried; split <;> rfl
@[simp] theorem State.keyQueried_V (s : State) (k : Byte) : (s.keyQueried k).V = s.V := by
  unfold State.keyQueried; split <;> rfl
@[simp] theorem State.keyQueried_I (s : State) (k : Byte) : (s.keyQueried k).I = s.I := by
  unfold State.keyQueried; split <;> rfl
@[simp] theorem State.keyQueried_pc (s : State) (k : Byte) : (s.keyQueried k).pc = s.pc := by
  unfold State.keyQueried; split <;> rfl
@[simp] theorem State.keyQueried_stack (s : State) (k : Byte) : (s.keyQueried k).stack = s.stack := by
  unfold State.keyQueried; split <;> rfl
@[simp] theorem State.keyQueried_sp (s : State) (k : Byte) : (s.keyQueried k).sp = s.sp := by
  unfold State.keyQueried; split <;> rfl
@[simp] theorem State.keyQueried_DT (s : State) (k : Byte) : (s.keyQueried k).DT = s.DT := by
  unfold State.keyQueried; split <;> rfl
@[simp] theorem State.keyQueried_ST (s : State) (k : Byte) : (s.keyQueried k).ST = s.ST := by
  unfold State.keyQueried; split <;> rfl
@[simp] theorem State.keyQueried_paused (s : State) (k : Byte) : (s.keyQueried k).paused = s.paused := by
  unfold State.keyQueried; split <;> rfl
@[simp] theorem State.keyQueried_target (s : State) (k : Byte) : (s.keyQueried k).target = s.target := by
  unfold State.keyQueried; split <;> rfl
@[simp] theorem State.keyQueried_fb (s : State) (k : Byte) : (s.keyQueried k).fb = s.fb := by
  unfold State.keyQueried; split <;> rfl
@[simp] theorem State.keyQueried_redraw (s : State) (k : Byte) : (s.keyQueried k).redraw = s.redraw := by
  unfold State.keyQueried; split <;> rfl
@[simp] theorem State.keyQueried_fault (s : State) (k : Byte) : (s.keyQueried k).fault = s.fault := by
  unfold State.keyQueried; split <;> rfl
@[simp] theorem State.keyQueried_params (s : State) (k : Byte) : (s.keyQueried k).params = s.params := by
  unfold State.keyQueried; split <;> rfl
@[simp] theorem State.keyQueried_inp (s : State) (k : Byte) : (s.keyQueried k).inp = s.inp := by
  unfold State.keyQueried; split <;> rfl
@[simp] theorem State.keyQueried_agenda (s : State) (k : Byte) : (s.keyQueried k).agenda = s.agenda := by
  unfold State.keyQueried; split <;> rfl
@[simp] theorem State.keyQueried_draws (s : State) (k : Byte) : (s.keyQueried k).draws = s.draws := by
  unfold State.keyQueried; split <;> rfl
theorem State.keyQueried_out (s : State) (k : Byte) :
    (s.keyQueried k).out = if k.toNat < 16 then s.out else .diag .keyOutOfRange :: s.out := by
  unfold State.keyQueried keyInRange; split <;> simp_all
@[simp] theorem State.getV_keyQueried (s : State) (k : Byte) (r : Reg) : (s.keyQueried k).getV r = s.getV r := by
  unfold State.keyQueried; split <;> rfl
@[simp] theorem State.byteAt_keyQueried (s : State) (k : Byte) (a : Nat) : (s.keyQueried k).byteAt a = s.byteAt a := by
  unfold State.keyQueried; split <;> rfl

/-! ## Lists of stores: what they write and what they leave alone -/

/-- Two states that agree on everything but memory. -/
def SameButMem (s t : State) : Prop := t = { s with mem := t.mem }

/-- Two states that agree on everything but V. -/
def SameButV (s t : State) : Prop := t = { s with V := t.V }

theorem SameButMem.refl (s : State) : SameButMem s s := rfl

theorem SameButMem.storeByte {s t : State} (h : SameButMem s t) (a : Nat) (v : Byte) : SameButMem s (t.storeByte a v) := by
  unfold SameButMem at h ⊢
  rw [State.storeByte, h]

theorem State.storeBytes_sameButMem (base : Nat) (b : List Byte) (s t : State) (h : SameButMem s t) :
    SameButMem s (t.storeBytes base b) := by
  induction b generalizing base t with
  | nil => exact h
  | cons v vs ih => exact ih (base + 1) _ (h.storeByte base v)

theorem State.storeBytes_memWf (base : Nat) (b : List Byte) (s : State) (hb : base + b.length ≤ memSize) (h : s.memWf) :
    (s.storeBytes base b).memWf := by
  induction b generalizing base s with
  | nil => exact h
  | cons v vs ih =>
    rw [List.length_cons] at hb
    exact ih (base + 1) _ (by omega) (s.storeByte_memWf base v (by omega) h)

/-- A cell outside the stored range reads as before. -/
theorem State.byteAt_storeBytes_of_out (base : Nat) (b : List Byte) (s : State) (a : Nat)
    (ha : a < base ∨ base + b.length ≤ a) : (s.storeBytes base b).byteAt a = s.byteAt a := by
  induction b generalizing base s with
  | nil => rfl
  | cons v vs ih =>
    rw [List.length_cons] at ha
    rw [State.storeBytes, ih (base + 1) _ (by omega), State.byteAt_storeByte_of_ne _ _ _ _ (by omega)]

/-- The k-th stored cell reads as the k-th byte. -/
theorem State.byteAt_storeBytes (base : Nat) (b : List Byte) (s : State) (k : Nat) (hk : k < b.length)
    (hb : base + b.length ≤ memSize) (h : s.memWf) : (s.storeBytes base b).byteAt (base + k) = b[k] := by
  induction b generalizing base s k with
  | nil => exact absurd hk (Nat.not_lt_zero k)
  | cons v vs ih =>
    rw [List.length_cons] at hb hk
    have hwf := s.storeByte_memWf base v (by omega) h
    cases k with
    | zero =>
      rw [State.storeBytes, State.byteAt_storeBytes_of_out _ _ _ _ (by omega), State.byteAt_storeByte _ _ _ _ h]
      simp
    | succ k =>
      have := ih (base + 1) (s.storeByte base v) k (by omega) (by omega) hwf
      rw [State.storeBytes, List.getElem_cons_succ, ← this]
      congr 1; omega

/-! ## FX55 and FX65 -/

theorem State.storeRegs_sameButMem (base n : Nat) (s : State) : SameButMem s (s.storeRegs base n) := by
  induction n with
  | zero => rfl
  | succ k ih => exact ih.storeByte _ _

theorem State.storeRegs_memWf (base n : Nat) (s : State) (hb : base + n ≤ memSize) (h : s.memWf) :
    (s.storeRegs base n).memWf := by
  induction n with
  | zero => exact h
  | succ k ih => exact State.storeByte_memWf _ _ _ (by omega) (ih (by omega))

theorem State.byteAt_storeRegs_of_out (base n : Nat) (s : State) (a : Nat) (ha : a < base ∨ base + n ≤ a) :
    (s.storeRegs base n).byteAt a = s.byteAt a := by
  induction n with
  | zero => rfl
  | succ k ih => rw [State.storeRegs, State.byteAt_storeByte_of_ne _ _ _ _ (by omega), ih (by omega)]

/-- After the stores the cell `base + k` holds V[k]. -/
theorem State.byteAt_storeRegs (base n : Nat) (s : State) (hb : base + n ≤ memSize) (h : s.memWf) (k : Nat) (hk : k < n) :
    (s.storeRegs base n).byteAt (base + k) = s.regAt k := by
  induction n with
  | zero => exact absurd hk (Nat.not_lt_zero k)
  | succ m ih =>
    rw [State.storeRegs, State.byteAt_storeByte _ _ _ _ (s.storeRegs_memWf base m (by omega) h)]
    split
    · rw [show k = m by omega]
    · exact ih (by omega) (by omega)

theorem State.regAt_eq (s : State) (r : Reg) : s.regAt r.val = s.getV r := by
  simp [State.regAt, State.getV]

theorem State.loadRegs_sameButV (base n : Nat) (s : State) : SameButV s (s.loadRegs base n) := by
  induction n with
  | zero => rfl
  | succ k ih =>
    unfold SameButV at ih ⊢
    rw [State.loadRegs]
    simp only
    rw [ih]

/-- After the loads V[r] holds the cell `base + r` for r below the count; the others are unchanged. -/
theorem State.getV_loadRegs (base n : Nat) (s : State) (r : Reg) :
    (s.loadRegs base n).getV r = if r.val < n then s.byteAt (base + r.val) else s.getV r := by
  induction n with
  | zero => simp [State.loadRegs]
  | succ k ih =>
    have hr := r.isLt
    simp only [State.getV, Fin.getElem_fin] at ih
    simp only [State.loadRegs, State.getV, Fin.getElem_fin, Vector.getElem_setIfInBounds, ih]
    by_cases hk : k = r.val
    · subst hk; simp
    · have : (r.val < k + 1) ↔ r.val < k := by omega
      simp [hk, this]

/-! ## Data accesses and the end of an operation -/

/-- What an instruction that accesses data answers: its effect when every address names a cell, else the state with the
latch set and nothing else changed (R52, R222). -/
theorem withData_cases (base len : Nat) (s : State) (k : State → State) :
    (dataInBounds base len = true ∧ withData base len s k = .next (k s)) ∨
      (dataInBounds base len = false ∧ withData base len s k = .next (s.raiseFatal .dataOutOfBounds)) := by
  unfold withData
  cases dataInBounds base len <;> simp

theorem dataInBounds_iff (base len : Nat) : dataInBounds base len = true ↔ len = 0 ∨ base + len ≤ 0x1000 := by
  simp [dataInBounds]

theorem withData_of_inBounds (base len : Nat) (s : State) (k : State → State) (h : len = 0 ∨ base + len ≤ 0x1000) :
    withData base len s k = .next (k s) := by
  rw [withData, if_pos ((dataInBounds_iff base len).2 h)]

theorem withData_of_outOfBounds (base len : Nat) (s : State) (k : State → State) (h0 : len ≠ 0) (h : 0x1000 < base + len) :
    withData base len s k = .next (s.raiseFatal .dataOutOfBounds) := by
  rw [withData, if_neg]
  rw [dataInBounds_iff]; omega

/-- The end of an operation whose body answered `t`. -/
theorem commit_next (s t : State) :
    commit s (.next t) = .next (match t.fault with | some c => s.raiseFatal c | none => t) := by
  cases h : t.fault <;> simp [commit, h]

theorem commit_of_no_fault (s t : State) (h : t.fault = none) : commit s (.next t) = .next t := by
  rw [commit_next, h]

theorem commit_of_fault (s t : State) (c : FatalCode) (h : t.fault = some c) : commit s (.next t) = .next (s.raiseFatal c) := by
  rw [commit_next, h]

end Sys2Proof.Machine
end

