-- ==== Sys2Proof/Laws/Display.lean ====
section
/-! SUPPORT. The laws of the bitmap and the blit: one lemma for a cell after a pixel, a row, a whole blit, and one for
the collision. -/

namespace Sys2Proof.Machine

/-! ## Cells -/

/-- A cell after a write to an existing cell. -/
theorem Bitmap.cell_setCell (fb : Bitmap) (r c r' c' : Nat) (v : Bool) (hr : r < 32) (hc : c < 64) :
    (fb.setCell r c v).cell r' c' = if r' = r ∧ c' = c then v else fb.cell r' c' := by
  unfold Bitmap.setCell
  rw [dif_pos ⟨hr, hc⟩]
  unfold Bitmap.cell
  by_cases h : r' < displayH ∧ c' < displayW
  · rw [dif_pos h, dif_pos h, Vector.getElem_set]
    by_cases hr' : r = r'
    · subst hr'; simp [Vector.getElem_set, eq_comm]
    · rw [if_neg hr', if_neg (fun e => hr' e.1.symm)]
  · rw [dif_neg h, dif_neg h, if_neg]
    rintro ⟨rfl, rfl⟩
    exact h ⟨hr, hc⟩

/-- Bitmaps with the same cells are the same. -/
theorem Bitmap.ext_cell (a b : Bitmap) (h : ∀ r c, r < 32 → c < 64 → a.cell r c = b.cell r c) : a = b := by
  apply Vector.ext
  intro r hr
  apply Vector.ext
  intro c hc
  have := h r c hr hc
  unfold Bitmap.cell at this
  rwa [dif_pos ⟨hr, hc⟩, dif_pos ⟨hr, hc⟩] at this

@[simp] theorem Bitmap.cell_blank (r c : Nat) : Bitmap.blank.cell r c = false := by
  unfold Bitmap.cell Bitmap.blank
  split <;> simp

/-! ## The blit -/

/-- One pixel. -/
theorem Blit.cell_pixel (b : Byte) (row x0 c : Nat) (p : Blit) (hrow : row < 32) (r' c' : Nat) :
    (p.pixel b row x0 c).fb.cell r' c' =
      (p.fb.cell r' c' ^^ (decide (r' = row ∧ c' = x0 + c ∧ c' < 64) && spriteBit b c)) := by
  unfold Blit.pixel
  by_cases h : x0 + c < displayW ∧ spriteBit b c = true
  · rw [if_pos h]
    have h64 : x0 + c < 64 := h.1
    simp only [Bitmap.cell_setCell _ _ _ _ _ _ hrow h64, h.2, Bool.and_true]
    by_cases he : r' = row ∧ c' = x0 + c
    · obtain ⟨rfl, rfl⟩ := he; simp [h64]
    · have : ¬(r' = row ∧ c' = x0 + c ∧ c' < 64) := fun e => he ⟨e.1, e.2.1⟩
      simp [he, this]
  · rw [if_neg h]
    by_cases hb : spriteBit b c = true
    · have : ¬(r' = row ∧ c' = x0 + c ∧ c' < 64) := by
        rintro ⟨-, rfl, h64⟩; exact h ⟨h64, hb⟩
      simp [this]
    · simp [Bool.not_eq_true _ ▸ hb]

/-- The first `count` pixels of a row. -/
theorem Blit.cell_row (b : Byte) (row x0 : Nat) (hrow : row < 32) (count : Nat) (p : Blit) (r' c' : Nat) :
    (p.row b row x0 count).fb.cell r' c' =
      (p.fb.cell r' c' ^^ (decide (r' = row ∧ x0 ≤ c' ∧ c' < x0 + count ∧ c' < 64) && spriteBit b (c' - x0))) := by
  induction count with
  | zero =>
    have : ¬(r' = row ∧ x0 ≤ c' ∧ c' < x0 + 0 ∧ c' < 64) := by omega
    simp only [Blit.row, this, decide_false, Bool.false_and, Bool.xor_false]
  | succ c ih =>
    rw [Blit.row, Blit.cell_pixel _ _ _ _ _ hrow, ih]
    by_cases he : r' = row ∧ c' = x0 + c ∧ c' < 64
    · obtain ⟨rfl, rfl, h64⟩ := he
      simp [h64]
    · have : (r' = row ∧ x0 ≤ c' ∧ c' < x0 + (c + 1) ∧ c' < 64) ↔ (r' = row ∧ x0 ≤ c' ∧ c' < x0 + c ∧ c' < 64) := by
        omega
      simp only [he, this, decide_false, Bool.false_and, Bool.xor_false]

/-- The first `count` rows of a sprite, all on the display. -/
theorem Blit.cell_rows (bytes : Nat → Byte) (y0 x0 : Nat) (count : Nat) (hy : y0 + count ≤ 32) (p : Blit) (r' c' : Nat) :
    (p.rows bytes y0 x0 count).fb.cell r' c' =
      (p.fb.cell r' c' ^^ (decide (y0 ≤ r' ∧ r' < y0 + count ∧ x0 ≤ c' ∧ c' < x0 + 8 ∧ c' < 64) &&
        spriteBit (bytes (r' - y0)) (c' - x0))) := by
  induction count with
  | zero =>
    have : ¬(y0 ≤ r' ∧ r' < y0 + 0 ∧ x0 ≤ c' ∧ c' < x0 + 8 ∧ c' < 64) := by omega
    simp only [Blit.rows, this, decide_false, Bool.false_and, Bool.xor_false]
  | succ r ih =>
    rw [Blit.rows, Blit.cell_row _ _ _ (by omega), ih (by omega)]
    by_cases he : r' = y0 + r
    · subst he
      have h1 : ¬(y0 ≤ y0 + r ∧ y0 + r < y0 + r ∧ x0 ≤ c' ∧ c' < x0 + 8 ∧ c' < 64) := by omega
      have h2 : (y0 ≤ y0 + r ∧ y0 + r < y0 + (r + 1) ∧ x0 ≤ c' ∧ c' < x0 + 8 ∧ c' < 64) ↔
          (x0 ≤ c' ∧ c' < x0 + 8 ∧ c' < 64) := by omega
      simp only [h1, h2, decide_false, Bool.false_and, Bool.xor_false, true_and, Nat.add_sub_cancel_left]
    · have h1 : (y0 ≤ r' ∧ r' < y0 + (r + 1) ∧ x0 ≤ c' ∧ c' < x0 + 8 ∧ c' < 64) ↔
          (y0 ≤ r' ∧ r' < y0 + r ∧ x0 ≤ c' ∧ c' < x0 + 8 ∧ c' < 64) := by omega
      simp only [he, h1, false_and, decide_false, Bool.false_and, Bool.xor_false]

/-! ## The collision (R183) -/

theorem Blit.collision_pixel (b : Byte) (row x0 c : Nat) (p : Blit) :
    (p.pixel b row x0 c).collision =
      (p.collision || (decide (x0 + c < 64) && spriteBit b c && p.fb.cell row (x0 + c))) := by
  unfold Blit.pixel
  by_cases h1 : x0 + c < 64 <;> cases h2 : spriteBit b c <;> simp [h1]

/-- A row collides when one of its drawn set bits meets a lit cell of the bitmap it started from. -/
theorem Blit.collision_row (b : Byte) (row x0 : Nat) (hrow : row < 32) (count : Nat) (p : Blit) :
    (p.row b row x0 count).collision = true ↔
      p.collision = true ∨ ∃ c, c < count ∧ x0 + c < 64 ∧ spriteBit b c = true ∧ p.fb.cell row (x0 + c) = true := by
  induction count with
  | zero => simp [Blit.row]
  | succ c ih =>
    have hcell : (p.row b row x0 c).fb.cell row (x0 + c) = p.fb.cell row (x0 + c) := by
      rw [Blit.cell_row _ _ _ hrow]
      simp
    rw [Blit.row, Blit.collision_pixel, hcell]
    simp only [Bool.or_eq_true, ih, Bool.and_eq_true, decide_eq_true_eq]
    constructor
    · rintro ((h | ⟨k, hk, h⟩) | h)
      · exact .inl h
      · exact .inr ⟨k, by omega, h⟩
      · exact .inr ⟨c, by omega, h.1.1, h.1.2, h.2⟩
    · rintro (h | ⟨k, hk, h⟩)
      · exact .inl (.inl h)
      · rcases Nat.lt_succ_iff_lt_or_eq.1 hk with hk | rfl
        · exact .inl (.inr ⟨k, hk, h⟩)
        · exact .inr ⟨⟨h.1, h.2.1⟩, h.2.2⟩

/-- A sprite collides when one of its drawn set bits meets a lit cell of the bitmap before the draw. -/
theorem Blit.collision_rows (bytes : Nat → Byte) (y0 x0 : Nat) (count : Nat) (hy : y0 + count ≤ 32) (p : Blit) :
    (p.rows bytes y0 x0 count).collision = true ↔
      p.collision = true ∨ ∃ r c, r < count ∧ c < 8 ∧ x0 + c < 64 ∧ spriteBit (bytes r) c = true ∧
        p.fb.cell (y0 + r) (x0 + c) = true := by
  induction count with
  | zero => simp [Blit.rows]
  | succ r ih =>
    have hcell : ∀ c, (p.rows bytes y0 x0 r).fb.cell (y0 + r) (x0 + c) = p.fb.cell (y0 + r) (x0 + c) := by
      intro c
      rw [Blit.cell_rows _ _ _ _ (by omega)]
      have : ¬(y0 ≤ y0 + r ∧ y0 + r < y0 + r ∧ x0 ≤ x0 + c ∧ x0 + c < x0 + 8 ∧ x0 + c < 64) := by omega
      simp only [this, decide_false, Bool.false_and, Bool.xor_false]
    rw [Blit.rows, Blit.collision_row _ _ _ (by omega), ih (by omega)]
    simp only [hcell]
    constructor
    · rintro ((h | ⟨k, c, hk, h⟩) | ⟨c, h⟩)
      · exact .inl h
      · exact .inr ⟨k, c, by omega, h⟩
      · exact .inr ⟨r, c, by omega, h⟩
    · rintro (h | ⟨k, c, hk, h⟩)
      · exact .inl (.inl h)
      · rcases Nat.lt_succ_iff_lt_or_eq.1 hk with hk | rfl
        · exact .inl (.inr ⟨k, c, hk, h⟩)
        · exact .inr ⟨c, h⟩

/-- The drawn rows stay on the display (R182). -/
theorem originRow_add_spriteRows_le (vy : Byte) (n : Fin 16) : originRow vy + spriteRows vy n ≤ 32 := by
  have : originRow vy < 32 := Nat.mod_lt _ (by decide)
  simp only [spriteRows, displayH]
  omega

end Sys2Proof.Machine
end

