-- ==== Sys2Proof/Laws/Exec.lean ====
section
/-! SUPPORT. What the meanings that access memory answer, in bounds and out of bounds; operand forms and flags as
numbers; the blit in the terms of the statements. -/

namespace Sys2Proof.Machine

/-! ## Operand forms and flags as numbers -/

theorem zextAddr_toNat (nnn : Imm12) : (zextAddr nnn).toNat = nnn.toNat := by
  simp [zextAddr]; omega

theorem glyphAddr_toNat (v : Byte) : (glyphAddr v).toNat = v.toNat * 5 := by
  simp [glyphAddr]; omega

theorem transferredI_toNat (q : Bool) (i : Word) (x : Reg) (h : i.toNat + x.val ≤ 0xFFF) :
    (transferredI q i x).toNat = if q then i.toNat else i.toNat + x.val + 1 := by
  cases q
  · simp [transferredI]; omega
  · simp [transferredI]

theorem jpOffReg_quirk (nnn : Imm12) (x : Reg) (h : x.val = nnn.toNat / 0x100) : jpOffReg true nnn = x := by
  apply Fin.ext
  rw [h]
  show (nnn.extractLsb' 8 4).toNat = _
  simp only [BitVec.extractLsb'_toNat, Nat.shiftRight_eq_div_pow]
  omega

@[simp] theorem flagByte_toNat (c : Bool) : (flagByte c).toNat = if c then 1 else 0 := by cases c <;> rfl

theorem lowBitFlag_toNat (b : Byte) : (flagByte (lowBitFlag b)).toNat = b.toNat % 2 := by revert b; decide

theorem highBitFlag_toNat (b : Byte) : (flagByte (highBitFlag b)).toNat = b.toNat / 128 := by revert b; decide

theorem indexSum_toNat (i : Word) (a : Byte) : (indexSum i a).toNat = (i.toNat + a.toNat) % 0x1000 := by
  have h : (i.toNat + a.toNat) &&& 0x0FFF = (i.toNat + a.toNat) % 0x1000 := Nat.and_two_pow_sub_one_eq_mod _ 12
  simp only [indexSum, h, BitVec.toNat_ofNat]
  omega

theorem timerTick_toNat (t : Byte) : (timerTick t).toNat = t.toNat - 1 := by revert t; decide

theorem keyByte_toNat (k : Reg) : (keyByte k).toNat = k.val := by simp [keyByte]; omega

/-- The registers after the quirk copy of a shift. -/
theorem State.getV_quirkCopy (s : State) (x y r : Reg) :
    (s.quirkCopy x y).getV r = if r = x ∧ s.params.quirk = true then s.getV y else s.getV r := by
  unfold State.quirkCopy
  split <;> simp [State.getV_setV, *]

/-- What a register holds while the result of SUB or SUBN is computed. -/
theorem State.getV_setVF_toNat (s : State) (c : Bool) (r : Reg) :
    ((s.setVF (flagByte c)).getV r).toNat = s.seenAfterFlag (if c then 1 else 0) r := by
  simp only [State.setVF_eq, State.getV_setV, State.seenAfterFlag]
  split <;> simp

/-! ## Instructions that access memory -/

theorem exec_ldBVx_of_inBounds (s : State) (x : Reg) (h : s.I.toNat + 2 ≤ 0xFFF) :
    exec (.ldBVx x) s = .next (s.storeDigits s.dataBase (s.getV x)) :=
  withData_of_inBounds s.I.toNat 3 s _ (by omega)

theorem exec_ldBVx_of_outOfBounds (s : State) (x : Reg) (h : 0xFFF < s.I.toNat + 2) :
    exec (.ldBVx x) s = .next (s.raiseFatal .dataOutOfBounds) :=
  withData_of_outOfBounds s.I.toNat 3 s _ (by decide) (by omega)

theorem exec_ldMemVx_of_inBounds (s : State) (x : Reg) (h : s.I.toNat + x.val ≤ 0xFFF) :
    exec (.ldMemVx x) s =
      .next ((s.storeRegs s.dataBase (x.val + 1)).setI (transferredI s.params.quirk s.I x)) :=
  withData_of_inBounds s.I.toNat (x.val + 1) s
    (fun s => (s.storeRegs s.dataBase (x.val + 1)).setI (transferredI s.params.quirk s.I x)) (by omega)

theorem exec_ldMemVx_of_outOfBounds (s : State) (x : Reg) (h : 0xFFF < s.I.toNat + x.val) :
    exec (.ldMemVx x) s = .next (s.raiseFatal .dataOutOfBounds) :=
  withData_of_outOfBounds s.I.toNat (x.val + 1) s
    (fun s => (s.storeRegs s.dataBase (x.val + 1)).setI (transferredI s.params.quirk s.I x)) (by omega) (by omega)

theorem exec_ldVxMem_of_inBounds (s : State) (x : Reg) (h : s.I.toNat + x.val ≤ 0xFFF) :
    exec (.ldVxMem x) s =
      .next ((s.loadRegs s.dataBase (x.val + 1)).setI (transferredI s.params.quirk s.I x)) :=
  withData_of_inBounds s.I.toNat (x.val + 1) s
    (fun s => (s.loadRegs s.dataBase (x.val + 1)).setI (transferredI s.params.quirk s.I x)) (by omega)

theorem exec_ldVxMem_of_outOfBounds (s : State) (x : Reg) (h : 0xFFF < s.I.toNat + x.val) :
    exec (.ldVxMem x) s = .next (s.raiseFatal .dataOutOfBounds) :=
  withData_of_outOfBounds s.I.toNat (x.val + 1) s
    (fun s => (s.loadRegs s.dataBase (x.val + 1)).setI (transferredI s.params.quirk s.I x)) (by omega) (by omega)

theorem exec_drw_of_inMemory (s : State) (x y : Reg) (n : Fin 16) (h : s.SpriteInMemory (s.getV y) n) :
    exec (.drw x y n) s = .next
      ((s.setFb (s.blit (s.getV x) (s.getV y) s.dataBase n).fb).setVF
        (flagByte (s.blit (s.getV x) (s.getV y) s.dataBase n).collision)) :=
  withData_of_inBounds s.dataBase (spriteRows (s.getV y) n) s
    (fun s => (s.setFb (s.blit (s.getV x) (s.getV y) s.dataBase n).fb).setVF
      (flagByte (s.blit (s.getV x) (s.getV y) s.dataBase n).collision)) h

theorem exec_drw_of_outOfMemory (s : State) (x y : Reg) (n : Fin 16) (h : ¬s.SpriteInMemory (s.getV y) n) :
    exec (.drw x y n) s = .next (s.raiseFatal .dataOutOfBounds) := by
  unfold State.SpriteInMemory at h
  rw [not_or] at h
  exact withData_of_outOfBounds s.dataBase (spriteRows (s.getV y) n) s
    (fun s => (s.setFb (s.blit (s.getV x) (s.getV y) s.dataBase n).fb).setVF
      (flagByte (s.blit (s.getV x) (s.getV y) s.dataBase n).collision)) h.1 (Nat.lt_of_not_le h.2)

theorem State.storeDigits_sameButMem (s : State) (base : Nat) (v : Byte) : SameButMem s (s.storeDigits base v) :=
  (((SameButMem.refl s).storeByte _ _).storeByte _ _).storeByte _ _

theorem State.storeDigits_memWf (s : State) (base : Nat) (v : Byte) (hb : base + 3 ≤ memSize) (h : s.memWf) :
    (s.storeDigits base v).memWf :=
  State.storeByte_memWf _ _ _ (by omega)
    (State.storeByte_memWf _ _ _ (by omega) (State.storeByte_memWf _ _ _ (by omega) h))

/-! ## The blit in the terms of the statements -/

theorem spriteBit_iff (b : Byte) (k : Nat) : spriteBit b k = true ↔ b.toNat / 2 ^ (7 - k) % 2 = 1 := by
  rw [spriteBit, ← BitVec.testBit_toNat, Nat.testBit_eq_decide_div_mod_eq, decide_eq_true_eq]

theorem State.spriteSets_iff (s : State) (vx vy : Byte) (n : Fin 16) (r c : Nat) (hr : r < 32) (hc : c < 64) :
    s.SpriteSets vx vy n r c ↔
      (originRow vy ≤ r ∧ r < originRow vy + spriteRows vy n ∧ originCol vx ≤ c ∧ c < originCol vx + 8 ∧ c < 64) ∧
        spriteBit (s.byteAt (s.dataBase + (r - originRow vy))) (c - originCol vx) = true := by
  rw [spriteBit_iff]
  unfold State.SpriteSets
  have hle := originRow_add_spriteRows_le vy n
  simp only [spriteRows, originRow, originCol, State.dataBase, displayH, displayW] at hle ⊢
  constructor
  · rintro ⟨h1, h2, h3⟩
    exact ⟨by omega, h3⟩
  · rintro ⟨h1, h3⟩
    exact ⟨by omega, by omega, h3⟩

/-- A cell of the drawn bitmap differs from the old one exactly where the sprite sets it. -/
theorem State.blit_cell_ne_iff (s : State) (vx vy : Byte) (n : Fin 16) (r c : Nat) (hr : r < 32) (hc : c < 64) :
    (s.blit vx vy s.dataBase n).fb.cell r c ≠ s.fb.cell r c ↔ s.SpriteSets vx vy n r c := by
  rw [s.spriteSets_iff vx vy n r c hr hc, State.blit, Blit.cell_rows _ _ _ _ (originRow_add_spriteRows_le vy n)]
  simp only
  cases s.fb.cell r c <;> simp [and_assoc]

/-- The blit collides exactly when the sprite sets a cell that was lit. -/
theorem State.blit_collision_iff (s : State) (vx vy : Byte) (n : Fin 16) :
    (s.blit vx vy s.dataBase n).collision = true ↔ ∃ r c, s.SpriteSets vx vy n r c ∧ s.fb.cell r c = true := by
  have hle := originRow_add_spriteRows_le vy n
  rw [State.blit, Blit.collision_rows _ _ _ _ hle]
  simp only [Bool.false_eq_true, false_or]
  constructor
  · rintro ⟨r, c, h1, h2, h3, h4, h5⟩
    refine ⟨_, _, (s.spriteSets_iff vx vy n _ _ (by omega) h3).2 ⟨by omega, ?_⟩, h5⟩
    simpa using h4
  · rintro ⟨r, c, h, h5⟩
    have hr := h.1.2.2
    have hc := h.2.1.2.2
    have h' := (s.spriteSets_iff vx vy n r c hr hc).1 h
    refine ⟨r - originRow vy, c - originCol vx, by omega, by omega, by omega, h'.2, ?_⟩
    rwa [Nat.add_sub_cancel' (by omega), Nat.add_sub_cancel' (by omega)]

end Sys2Proof.Machine
end

