-- ==== Sys2Proof/Laws/PerInstr.lean ====
section
/-! SUPPORT. The family of statements made per instruction: a well-formed instruction's word decodes to it
(30_encoding.md R72, R76). One lemma per constructor. -/

namespace Sys2Proof.Laws.RoundTrip

/-- The word of `i` is `i` on every machine where `i` is an instruction. -/
def Statement (i : Instr) : Prop := ∀ p : Params, i.wellFormed p = true → decode p (encode i) = i

theorem cls : Statement (.cls) := by
  rintro ⟨q, f, k, s, o⟩ -; cases k <;> rfl

theorem ret : Statement (.ret) := by
  rintro ⟨q, f, k, s, o⟩ -; cases k <;> rfl

theorem jp (nnn : Imm12) : Statement (.jp nnn) := fun p _ => by
  simp [decode, encode]

theorem call (nnn : Imm12) : Statement (.call nnn) := fun p _ => by
  simp [decode, encode]

theorem seImm (x : Reg) (nn : Byte) : Statement (.seImm x nn) := fun p _ => by
  simp [decode, encode]

theorem sneImm (x : Reg) (nn : Byte) : Statement (.sneImm x nn) := fun p _ => by
  simp [decode, encode]

theorem seReg (x : Reg) (y : Reg) : Statement (.seReg x y) := fun p _ => by
  simp [decode, encode, nAllowed59]

theorem ldImm (x : Reg) (nn : Byte) : Statement (.ldImm x nn) := fun p _ => by
  simp [decode, encode]

theorem addImm (x : Reg) (nn : Byte) : Statement (.addImm x nn) := fun p _ => by
  simp [decode, encode]

theorem ldReg (x : Reg) (y : Reg) : Statement (.ldReg x y) := fun p _ => by
  simp [decode, encode, decodeFamily8]

theorem orReg (x : Reg) (y : Reg) : Statement (.orReg x y) := fun p h => by
  have h : p.or8xy1 = true := h
  simp [decode, encode, decodeFamily8, h]

theorem andReg (x : Reg) (y : Reg) : Statement (.andReg x y) := fun p _ => by
  simp [decode, encode, decodeFamily8]

theorem xorReg (x : Reg) (y : Reg) : Statement (.xorReg x y) := fun p _ => by
  simp [decode, encode, decodeFamily8]

theorem addReg (x : Reg) (y : Reg) : Statement (.addReg x y) := fun p _ => by
  simp [decode, encode, decodeFamily8]

theorem sub (x : Reg) (y : Reg) : Statement (.sub x y) := fun p _ => by
  simp [decode, encode, decodeFamily8]

theorem shr (x : Reg) (y : Reg) : Statement (.shr x y) := fun p _ => by
  simp [decode, encode, decodeFamily8]

theorem subn (x : Reg) (y : Reg) : Statement (.subn x y) := fun p _ => by
  simp [decode, encode, decodeFamily8]

theorem shl (x : Reg) (y : Reg) : Statement (.shl x y) := fun p _ => by
  simp [decode, encode, decodeFamily8]

theorem sneReg (x : Reg) (y : Reg) : Statement (.sneReg x y) := fun p _ => by
  simp [decode, encode, nAllowed59]

theorem ldI (nnn : Imm12) : Statement (.ldI nnn) := fun p _ => by
  simp [decode, encode]

theorem jpOff (nnn : Imm12) : Statement (.jpOff nnn) := fun p _ => by
  simp [decode, encode]

theorem rnd (x : Reg) (nn : Byte) : Statement (.rnd x nn) := fun p _ => by
  simp [decode, encode]

theorem drw (x : Reg) (y : Reg) (n : Fin 16) : Statement (.drw x y n) := fun p _ => by
  simp [decode, encode]

theorem skp (x : Reg) : Statement (.skp x) := fun p _ => by
  simp [decode, encode, decodeFamilyE]

theorem sknp (x : Reg) : Statement (.sknp x) := fun p _ => by
  simp [decode, encode, decodeFamilyE]

theorem ldVxDt (x : Reg) : Statement (.ldVxDt x) := fun p _ => by
  simp [decode, encode, decodeFamilyF]

theorem ldVxK (x : Reg) : Statement (.ldVxK x) := fun p _ => by
  simp [decode, encode, decodeFamilyF]

theorem ldDtVx (x : Reg) : Statement (.ldDtVx x) := fun p _ => by
  simp [decode, encode, decodeFamilyF]

theorem ldStVx (x : Reg) : Statement (.ldStVx x) := fun p _ => by
  simp [decode, encode, decodeFamilyF]

theorem addIVx (x : Reg) : Statement (.addIVx x) := fun p _ => by
  simp [decode, encode, decodeFamilyF]

theorem ldFVx (x : Reg) : Statement (.ldFVx x) := fun p _ => by
  simp [decode, encode, decodeFamilyF]

theorem ldBVx (x : Reg) : Statement (.ldBVx x) := fun p _ => by
  simp [decode, encode, decodeFamilyF]

theorem ldMemVx (x : Reg) : Statement (.ldMemVx x) := fun p _ => by
  simp [decode, encode, decodeFamilyF]

theorem ldVxMem (x : Reg) : Statement (.ldVxMem x) := fun p _ => by
  simp [decode, encode, decodeFamilyF]

theorem unrecognized (w : Word) : Statement (.unrecognized w) := fun p h => decode_of_unrecognizedWord p w h

end Sys2Proof.Laws.RoundTrip
end

