-- ==== Sys2Proof/Laws/Step.lean ====
section
/-! SUPPORT. What a step can do, said once: the operation it performs, the cases of a CYCLE and of an EXEC, and what no
instruction writes. -/

namespace Sys2Proof.Machine

/-- A step that answers a next state performed the host's next operation, on a machine that has not failed or for a
query. -/
theorem step_next {s t : State} (h : step s = .next t) :
    (s.fault = none ∨ s.nextOp.isQuery = true) ∧ perform s.nextOp s.popAgenda = .next t := by
  unfold step hostStep at h
  split at h
  · split at h
    · exact ⟨.inr ‹_›, h⟩
    · cases h
  · exact ⟨.inl ‹_›, h⟩

/-- The step of a machine that has not failed. -/
theorem step_of_no_fault {s : State} (h : s.fault = none) : step s = perform s.nextOp s.popAgenda := by
  unfold step hostStep
  rw [h]

@[simp] theorem State.nextOp_of_nil {s : State} (h : s.agenda = []) : s.nextOp = .cycle s.inp := by
  unfold State.nextOp; rw [h]

@[simp] theorem State.nextOp_of_cons {s : State} {op : HostOp} {rest : List HostOp} (h : s.agenda = op :: rest) :
    s.nextOp = op := by
  unfold State.nextOp; rw [h]

/-- With nothing on the agenda there is nothing to take off it. -/
theorem State.popAgenda_of_nil {s : State} (h : s.agenda = []) : s.popAgenda = s := by
  unfold State.popAgenda; rw [h]; cases s; simp_all

@[simp] theorem State.setInp_self (s : State) : s.setInp s.inp = s := rfl

@[simp] theorem State.setQuirk_self (s : State) : s.setQuirk s.params.quirk = s := rfl

/-- With an empty agenda a machine that has not failed runs a CYCLE on the inputs it holds. -/
theorem step_of_nil {s : State} (hf : s.fault = none) (ha : s.agenda = []) : step s = s.cycleHeld := by
  rw [step_of_no_fault hf, State.nextOp_of_nil ha, State.popAgenda_of_nil ha]
  simp only [perform, opCycle, hf, State.setInp_self]

/-- A CYCLE the host calls, by default or from its agenda, on a machine that has not failed: the inputs are now the held
ones, and it has left the agenda. -/
theorem step_of_callsCycle {s : State} {inp : Inputs} {rest : List HostOp} (hf : s.fault = none)
    (h : s.CallsCycle inp rest) : step s = State.cycleHeld { s with inp := inp, agenda := rest } := by
  obtain ⟨ha, rfl, rfl⟩ | ha := h
  · rw [step_of_nil hf ha, ← ha]
  · rw [step_of_no_fault hf, State.nextOp_of_cons ha]
    simp only [perform, opCycle, State.popAgenda, State.setInp, hf, ha, List.tail_cons]

theorem State.cycleHeld_of_paused {s : State} (hf : s.fault = none) (hp : s.paused = true) :
    s.cycleHeld = .next s.resumeCheck := by
  simp only [State.cycleHeld, hf, hp, if_true]

theorem State.cycleHeld_of_running {s : State} (hf : s.fault = none) (hp : s.paused = false) : s.cycleHeld = s.pass := by
  simp [State.cycleHeld, hf, hp]

theorem State.pass_of_fetch {s : State} {w : Word} (h : s.fetch16 = some w) :
    s.pass = commit s (exec (decode s.params w) s.advancePc) := by
  simp only [State.pass, h]

theorem State.pass_of_no_fetch {s : State} (h : s.fetch16 = none) : s.pass = .next (s.raiseFatal .fetchOutOfBounds) := by
  simp only [State.pass, h]

/-- No instruction writes the parameters, the inputs or the agenda (R9, R92, R91). -/
theorem exec_keeps_host_side {i : Instr} {s t : State} (h : exec i s = .next t) :
    t.params = s.params ∧ t.inp = s.inp ∧ t.agenda = s.agenda := by
  have withData_keeps : ∀ (base len : Nat) (k : State → State),
      (∀ u, (k u).params = u.params ∧ (k u).inp = u.inp ∧ (k u).agenda = u.agenda) → withData base len s k = .next t →
      t.params = s.params ∧ t.inp = s.inp ∧ t.agenda = s.agenda := by
    intro base len k hk h
    rcases withData_cases base len s k with ⟨-, e⟩ | ⟨-, e⟩ <;> rw [e] at h <;> cases h
    · exact hk s
    · exact ⟨rfl, rfl, rfl⟩
  cases i
  case drw x y n =>
    simp only [exec, execDrw] at h
    refine withData_keeps _ _ _ (fun _ => ?_) h
    exact ⟨rfl, rfl, rfl⟩
  case ldBVx x =>
    simp only [exec, execLdBVx] at h
    refine withData_keeps _ _ _ (fun _ => ?_) h
    exact ⟨rfl, rfl, rfl⟩
  case ldMemVx x =>
    simp only [exec, execLdMemVx] at h
    refine withData_keeps _ _ _ (fun u => ?_) h
    have := u.storeRegs_sameButMem u.dataBase (x.val + 1)
    unfold SameButMem at this
    rw [this]; exact ⟨rfl, rfl, rfl⟩
  case ldVxMem x =>
    simp only [exec, execLdVxMem] at h
    refine withData_keeps _ _ _ (fun u => ?_) h
    have := u.loadRegs_sameButV u.dataBase (x.val + 1)
    unfold SameButV at this
    rw [this]; exact ⟨rfl, rfl, rfl⟩
  case ret => simp only [exec, execRet] at h; split at h <;> cases h <;> exact ⟨rfl, rfl, rfl⟩
  case call nnn => simp only [exec, execCall] at h; split at h <;> cases h <;> exact ⟨rfl, rfl, rfl⟩
  case seImm x nn => cases h; rw [State.skipIf_eq]; exact ⟨rfl, rfl, rfl⟩
  case sneImm x nn => cases h; rw [State.skipIf_eq]; exact ⟨rfl, rfl, rfl⟩
  case seReg x y => cases h; rw [State.skipIf_eq]; exact ⟨rfl, rfl, rfl⟩
  case sneReg x y => cases h; rw [State.skipIf_eq]; exact ⟨rfl, rfl, rfl⟩
  case skp x => cases h; rw [State.skipIf_eq]; simp
  case sknp x => cases h; rw [State.skipIf_eq]; simp
  case shr x y => cases h; unfold State.quirkCopy; split <;> exact ⟨rfl, rfl, rfl⟩
  case shl x y => cases h; unfold State.quirkCopy; split <;> exact ⟨rfl, rfl, rfl⟩
  all_goals cases h; exact ⟨rfl, rfl, rfl⟩

/-! ## The fetch (R51) -/

theorem State.fetch16_of_le {s : State} (h : s.pc.toNat ≤ 0xFFE) : s.fetch16 = some (s.wordAt s.pc.toNat) := by
  rw [State.fetch16, if_pos h, joinBytes_eq_wordAt]

theorem State.fetch16_of_gt {s : State} (h : 0xFFE < s.pc.toNat) : s.fetch16 = none := by
  rw [State.fetch16, if_neg (by omega)]

/-! ## What a committed operation and a step can do -/

/-- A committed operation latches a cause on the state it began in, or answers what its body answered. -/
theorem commit_cases {s t : State} {o : Host.Outcome State Fault Refusal} (h : commit s o = .next t) :
    (∃ c, t = s.raiseFatal c) ∨ (o = .next t ∧ t.fault = none) := by
  cases o with
  | next u =>
    rw [commit_next] at h
    cases hu : u.fault with
    | none => rw [hu] at h; cases h; exact .inr ⟨rfl, hu⟩
    | some c => rw [hu] at h; cases h; exact .inl ⟨c, rfl⟩
  | fault f => cases h
  | refused r => cases h

/-- A predicate of states that every part of an operation keeps is kept by every step. -/
theorem step_preserves (P : State → Prop) (hexec : ∀ i s t, P s → exec i s = .next t → P t)
    (hfatal : ∀ s c, P s → P (s.raiseFatal c)) (hadvance : ∀ s, P s → P s.advancePc)
    (hresume : ∀ s, P s → P s.resumeCheck) (hinp : ∀ s inp, P s → P (s.setInp inp))
    (hquirk : ∀ s q, P s → P (s.setQuirk q)) (hpop : ∀ s, P s → P s.popAgenda) (hemit : ∀ s o, P s → P (s.emit o))
    (hack : ∀ s, P s → P s.ackRedraw) (htick : ∀ s a b, P s → P ((s.setDT a).setST b))
    (hload : ∀ (s : State) b, P s → b.length ≤ maxProgram → P (s.storeBytes programBase b))
    {s t : State} (h0 : P s) (h : step s = .next t) : P t := by
  have committed : ∀ {s t : State} {o}, P s → (∀ u, o = .next u → P u) → commit s o = .next t → P t := by
    intro s t o hs ho h
    rcases commit_cases h with ⟨c, rfl⟩ | ⟨e, -⟩
    · exact hfatal _ _ hs
    · exact ho _ e
  have held : ∀ {s t : State}, P s → s.cycleHeld = .next t → P t := by
    intro s t hs h
    unfold State.cycleHeld at h
    split at h
    · cases h; exact hs
    · split at h
      · cases h; exact hresume _ hs
      · unfold State.pass at h
        split at h
        · cases h; exact hfatal _ _ hs
        · exact committed hs (fun u hu => hexec _ _ _ (hadvance _ hs) hu) h
  obtain ⟨-, h⟩ := step_next h
  replace h0 := hpop _ h0
  generalize s.popAgenda = s at *
  cases hop : State.nextOp _ <;> rw [hop] at h <;>
    simp only [perform, opCycle, opExec, opLoad, opTick, opRedrawAck] at h
  case load b =>
    cases h
    split
    · exact h0
    · split
      · exact hfatal _ _ h0
      · exact hload _ _ h0 (Nat.not_lt.1 ‹_›)
  case cycle inp =>
    split at h
    · cases h; exact h0
    · exact held (hinp _ _ h0) h
  case exec w q inp =>
    split at h
    · cases h; exact h0
    · refine committed (hinp _ _ h0) (fun u hu => ?_) h
      cases he : exec (decode s.params w) (State.setQuirk q (s.setInp inp)) with
      | next v => rw [he] at hu; cases hu; exact hquirk _ _ (hexec _ _ _ (hquirk _ _ (hinp _ _ h0)) he)
      | fault f => rw [he] at hu; cases hu
      | refused r => rw [he] at hu; cases hu
  case tick => cases h; split; exact h0; split; exact h0; exact htick _ _ _ h0
  case redrawAck => cases h; split; exact h0; exact hack _ h0
  all_goals cases h; exact hemit _ _ h0

end Sys2Proof.Machine
end

