-- ==== Sys2Proof/Tests/Slice0.lean ====
section
/-! SUPPORT. The package's own tests: ill-formed terms refused, words written out bit by bit from the formats of
30_encoding.md R72 and the dispatch of R77 to R81, single steps with the expected results of 95_test_vectors.md (each
test names its vector), and a witness for the hypotheses of every statement that has some. -/

open Sys2Proof Sys2Proof.Machine

namespace Sys2Proof.Tests

/-! ## Helpers -/

/-- The outcome is a next state of which `f` holds. -/
def goes (o : Host.Outcome State Fault Refusal) (f : State → Bool) : Bool :=
  match o with
  | .next t => f t
  | .fault _ => false
  | .refused _ => false

/-- The outcome is the fault `c`. -/
def stops (o : Host.Outcome State Fault Refusal) (c : Fault) : Bool :=
  match o with
  | .next _ => false
  | .fault f => f == c
  | .refused _ => false

/-- The two bytes of a word at 0x200, where the reset state fetches. -/
def at200 (hi lo : Byte) (s : State) : State := (s.storeByte 0x200 hi).storeByte 0x201 lo

/-- The reset state with some registers set. -/
def regs (l : List (Reg × Byte)) : State := l.foldl (fun s e => s.setV e.1 e.2) State.reset

/-- The word decodes, under the default parameters, to the instruction, whose encoding is that word. -/
def codes (w : Word) (i : Instr) : Bool := decode Params.default w == i && encode i == w

/-! ## WellFormed refuses ill-formed terms -/

theorem test_wf_or_needs_parameter : (Instr.orReg 0 1).wellFormed Params.default = false := by decide
theorem test_wf_or_with_parameter : (Instr.orReg 0 1).wellFormed Params.table = true := by decide
theorem test_wf_recognized_word : (Instr.unrecognized 0x6A5C).wellFormed Params.default = false := by decide
theorem test_wf_low_byte_key :
    (Instr.unrecognized 0x01E0).wellFormed Params.default = false ∧
    (Instr.unrecognized 0x01E0).wellFormed { Params.default with family0Key := .fullWord } = true := by decide
theorem test_wf_low_nibble_key :
    (Instr.unrecognized 0x0120).wellFormed { Params.default with family0Key := .lowNibble } = false ∧
    (Instr.unrecognized 0x0120).wellFormed Params.default = true := by decide
theorem test_wf_full_word_key :
    (Instr.unrecognized 0x00EE).wellFormed { Params.default with family0Key := .fullWord } = false := by decide
theorem test_wf_strict_59 :
    (Instr.unrecognized 0x5121).wellFormed Params.default = false ∧
    (Instr.unrecognized 0x5121).wellFormed { Params.default with strict59 := true } = true ∧
    (Instr.unrecognized 0x9120).wellFormed { Params.default with strict59 := true } = false := by decide
theorem test_wf_or_word :
    (Instr.unrecognized 0x8011).wellFormed Params.default = true ∧
    (Instr.unrecognized 0x8011).wellFormed Params.table = false := by decide
theorem test_wf_families_E_and_F :
    (Instr.unrecognized 0xE09E).wellFormed Params.default = false ∧
    (Instr.unrecognized 0xF065).wellFormed Params.default = false ∧
    (Instr.unrecognized 0xF0FF).wellFormed Params.default = true := by decide

/-! ## Every constructor's word, bits 15 to 0 as R72 lays them out -/

theorem test_decode_cls : codes 0b0000000011100000 .cls = true := by decide
theorem test_decode_ret : codes 0b0000000011101110 .ret = true := by decide
theorem test_decode_jp : codes 0b0001001000110100 (.jp 0x234) = true := by decide
theorem test_decode_call : codes 0b0010001100000000 (.call 0x300) = true := by decide
theorem test_decode_seImm : codes 0b0011001101000010 (.seImm 0x3 0x42) = true := by decide
theorem test_decode_sneImm : codes 0b0100001101000010 (.sneImm 0x3 0x42) = true := by decide
theorem test_decode_seReg : codes 0b0101000100100000 (.seReg 0x1 0x2) = true := by decide
theorem test_decode_ldImm : codes 0b0110101001011100 (.ldImm 0xA 0x5C) = true := by decide
theorem test_decode_addImm : codes 0b0111101000000010 (.addImm 0xA 0x02) = true := by decide
theorem test_decode_ldReg : codes 0b1000000000010000 (.ldReg 0x0 0x1) = true := by decide
theorem test_decode_orReg :
    decode Params.table 0b1000000000010001 = .orReg 0x0 0x1 ∧ encode (.orReg 0x0 0x1) = 0b1000000000010001 := by decide
theorem test_decode_andReg : codes 0b1000000000010010 (.andReg 0x0 0x1) = true := by decide
theorem test_decode_xorReg : codes 0b1000000000010011 (.xorReg 0x0 0x1) = true := by decide
theorem test_decode_addReg : codes 0b1000111100010100 (.addReg 0xF 0x1) = true := by decide
theorem test_decode_sub : codes 0b1000000011110101 (.sub 0x0 0xF) = true := by decide
theorem test_decode_shr : codes 0b1000000000010110 (.shr 0x0 0x1) = true := by decide
theorem test_decode_subn : codes 0b1000000000010111 (.subn 0x0 0x1) = true := by decide
theorem test_decode_shl : codes 0b1000000000011110 (.shl 0x0 0x1) = true := by decide
theorem test_decode_sneReg : codes 0b1001000100100000 (.sneReg 0x1 0x2) = true := by decide
theorem test_decode_ldI : codes 0b1010000100100011 (.ldI 0x123) = true := by decide
theorem test_decode_jpOff : codes 0b1011001111110000 (.jpOff 0x3F0) = true := by decide
theorem test_decode_rnd : codes 0b1100000000001111 (.rnd 0x0 0x0F) = true := by decide
theorem test_decode_drw : codes 0b1101000100100101 (.drw 0x1 0x2 0x5) = true := by decide
theorem test_decode_skp : codes 0b1110000010011110 (.skp 0x0) = true := by decide
theorem test_decode_sknp : codes 0b1110000010100001 (.sknp 0x0) = true := by decide
theorem test_decode_ldVxDt : codes 0b1111011000000111 (.ldVxDt 0x6) = true := by decide
theorem test_decode_ldVxK : codes 0b1111001100001010 (.ldVxK 0x3) = true := by decide
theorem test_decode_ldDtVx : codes 0b1111101000010101 (.ldDtVx 0xA) = true := by decide
theorem test_decode_ldStVx : codes 0b1111001000011000 (.ldStVx 0x2) = true := by decide
theorem test_decode_addIVx : codes 0b1111111100011110 (.addIVx 0xF) = true := by decide
theorem test_decode_ldFVx : codes 0b1111000000101001 (.ldFVx 0x0) = true := by decide
theorem test_decode_ldBVx : codes 0b1111000000110011 (.ldBVx 0x0) = true := by decide
theorem test_decode_ldMemVx : codes 0b1111001001010101 (.ldMemVx 0x2) = true := by decide
theorem test_decode_ldVxMem : codes 0b1111001101100101 (.ldVxMem 0x3) = true := by decide
theorem test_decode_unrecognized : codes 0b1111000011111111 (.unrecognized 0xF0FF) = true := by decide

/-- R82's list at its edges, and the words that differ only in ignored bits (R77, R78). -/
theorem test_decode_unrecognized_edges :
    decode Params.default 0x0000 = .unrecognized 0x0000 ∧ decode Params.default 0x8018 = .unrecognized 0x8018 ∧
    decode Params.default 0x801D = .unrecognized 0x801D ∧ decode Params.default 0x801F = .unrecognized 0x801F ∧
    decode Params.default 0x8011 = .unrecognized 0x8011 ∧ decode Params.default 0xE19F = .unrecognized 0xE19F ∧
    decode Params.default 0x01E0 = .cls ∧ decode Params.default 0x5121 = .seReg 1 2 := by decide

/-- Bytes are taken in memory order, high byte first (R51, R54); one byte is no word. -/
theorem test_decode_bytes :
    decodeBytes Params.default [0x6A, 0x5C, 0x12] = .ok (.ldImm 0xA 0x5C, [0x12]) ∧
    decodeBytes Params.default [0x6A] = .error .truncated ∧ encodeBytes (.ldImm 0xA 0x5C) = [0x6A, 0x5C] := by
  refine ⟨rfl, rfl, rfl⟩

theorem test_decode_table_word :
    decodeTableWord 16 0x8011 = some (.orReg 0 1) ∧ decodeTableWord 16 0x00EE = some .ret ∧
    decodeTableWord 16 0xD125 = some (.drw 1 2 5) ∧ decodeTableWord 16 0xF0FF = some (.unrecognized 0xF0FF) := by decide

/-! ## Control flow (95_test_vectors.md section 2.1) -/

/-- V-CF-01 -/
theorem test_ret : goes (step (at200 0x00 0xEE ((State.reset.push 0x206)))) (fun t => t.pc == 0x206 && t.sp == 0) = true := by
  decide
/-- V-CF-02 -/
theorem test_ret_underflow :
    goes (step (at200 0x00 0xEE State.reset)) (fun t => t.pc == 0 && t.sp == 0 && t.out == [.diag .stackUnderflow]) = true := by
  decide
/-- V-CF-03 -/
theorem test_jp : goes (step (at200 0x12 0x34 State.reset)) (fun t => t.pc == 0x234) = true := by decide
/-- V-CF-06 -/
theorem test_call :
    goes (step (at200 0x23 0x00 { State.reset with sp := 15 }))
      (fun t => t.pc == 0x300 && t.sp == 16 && t.stackAt 15 == 0x202) = true := by decide
/-- V-CF-07 -/
theorem test_call_overflow :
    goes (step (at200 0x23 0x00 { State.reset with sp := 16 }))
      (fun t => t.fault == some .stackOverflow && t.pc == 0x200 && t.sp == 16) = true := by decide
/-- V-CF-08 and V-CF-09 -/
theorem test_seImm :
    goes (step (at200 0x33 0x42 (regs [(3, 0x42)]))) (fun t => t.pc == 0x204) = true ∧
    goes (step (at200 0x33 0x42 (regs [(3, 0x41)]))) (fun t => t.pc == 0x202) = true := by decide
/-- V-CF-10 and V-CF-11 -/
theorem test_sneImm :
    goes (step (at200 0x43 0x42 (regs [(3, 0x42)]))) (fun t => t.pc == 0x202) = true ∧
    goes (step (at200 0x43 0x42 (regs [(3, 0x00)]))) (fun t => t.pc == 0x204) = true := by decide
/-- V-CF-12 and V-CF-13 -/
theorem test_seReg :
    goes (step (at200 0x51 0x20 (regs [(1, 7), (2, 7)]))) (fun t => t.pc == 0x204) = true ∧
    goes (step (at200 0x51 0x20 (regs [(1, 7), (2, 8)]))) (fun t => t.pc == 0x202) = true := by decide
/-- V-CF-14, both settings of P_STRICT_59 -/
theorem test_seReg_strict :
    goes (step (at200 0x51 0x21 (regs [(1, 7), (2, 7)]))) (fun t => t.pc == 0x204) = true ∧
    goes (step (at200 0x51 0x21 { regs [(1, 7), (2, 7)] with params := { Params.default with strict59 := true } }))
      (fun t => t.pc == 0x202) = true := by decide
/-- V-CF-15 and V-CF-16 -/
theorem test_sneReg :
    goes (step (at200 0x91 0x20 (regs [(1, 7), (2, 8)]))) (fun t => t.pc == 0x204) = true ∧
    goes (step (at200 0x91 0x10 (regs [(1, 7)]))) (fun t => t.pc == 0x202) = true := by decide
/-- V-CF-19 -/
theorem test_jpOff_legacy : goes (step (at200 0xBF 0xFF (regs [(0, 0xFF)]))) (fun t => t.pc == 0x10FE) = true := by decide
/-- V-CF-18 -/
theorem test_jpOff_quirk :
    goes (step (at200 0xB3 0x00 { regs [(0, 0x10), (3, 0x05)] with params := { Params.default with quirk := true } }))
      (fun t => t.pc == 0x305) = true := by decide
/-- V-EN-05 -/
theorem test_unrecognized :
    goes (step (at200 0xF0 0xFF State.reset)) (· == { at200 0xF0 0xFF State.reset with pc := 0x202 }) = true := by decide

/-! ## ALU (section 2.2) -/

/-- V-AL-01 -/
theorem test_ldImm : goes (step (at200 0x6A 0x5C State.reset)) (fun t => t.getV 0xA == 0x5C && t.pc == 0x202) = true := by
  decide
/-- V-AL-02 -/
theorem test_addImm_wraps :
    goes (step (at200 0x7A 0x02 (regs [(0xA, 0xFF), (0xF, 7)]))) (fun t => t.getV 0xA == 1 && t.getV 0xF == 7) = true := by
  decide
/-- V-AL-04 -/
theorem test_ldReg : goes (step (at200 0x80 0x10 (regs [(1, 0x33)]))) (fun t => t.getV 0 == 0x33) = true := by decide
/-- V-AL-05, both settings of P_8XY1_OR -/
theorem test_orReg :
    goes (step (at200 0x80 0x11 { regs [(0, 0xF0), (1, 0x3C)] with params := { Params.default with or8xy1 := true } }))
      (fun t => t.getV 0 == 0xFC) = true ∧
    goes (step (at200 0x80 0x11 (regs [(0, 0xF0), (1, 0x3C)]))) (fun t => t.getV 0 == 0xF0 && t.pc == 0x202) = true := by
  decide
/-- V-AL-06 -/
theorem test_andReg : goes (step (at200 0x80 0x12 (regs [(0, 0xF0), (1, 0x3C)]))) (fun t => t.getV 0 == 0x30) = true := by
  decide
/-- V-AL-07 -/
theorem test_xorReg : goes (step (at200 0x80 0x13 (regs [(0, 0xF0), (1, 0x3C)]))) (fun t => t.getV 0 == 0xCC) = true := by
  decide
/-- V-AL-11 -/
theorem test_addReg_carry :
    goes (step (at200 0x80 0x14 (regs [(0, 0xFF), (1, 0xFF)]))) (fun t => t.getV 0 == 0xFE && t.getV 0xF == 1) = true := by
  decide
/-- V-AL-12 -/
theorem test_addReg_flag_last :
    goes (step (at200 0x8F 0x14 (regs [(0xF, 0xFF), (1, 2)]))) (fun t => t.getV 0xF == 1) = true := by decide
/-- V-AL-14 and V-AL-15 -/
theorem test_sub :
    goes (step (at200 0x80 0x15 (regs [(0, 0xFE), (1, 5)]))) (fun t => t.getV 0 == 0xF9 && t.getV 0xF == 1) = true ∧
    goes (step (at200 0x80 0x15 (regs [(0, 5), (1, 5), (0xF, 9)]))) (fun t => t.getV 0 == 0 && t.getV 0xF == 0) = true := by
  decide
/-- V-AL-17 and V-AL-18 -/
theorem test_sub_flag_first :
    goes (step (at200 0x8F 0x15 (regs [(0xF, 0x10), (1, 1)]))) (fun t => t.getV 0xF == 0) = true ∧
    goes (step (at200 0x80 0xF5 (regs [(0, 0x10), (0xF, 5)]))) (fun t => t.getV 0 == 0x0F && t.getV 0xF == 1) = true := by
  decide
/-- V-AL-19 -/
theorem test_subn :
    goes (step (at200 0x80 0x17 (regs [(0, 0x0A), (1, 5)]))) (fun t => t.getV 0 == 0xFB && t.getV 0xF == 1) = true := by
  decide
/-- V-AL-22 -/
theorem test_shr_legacy :
    goes (step (at200 0x80 0x16 (regs [(0, 5), (1, 4)]))) (fun t => t.getV 0 == 2 && t.getV 0xF == 1) = true := by decide
/-- V-AL-23 -/
theorem test_shr_quirk :
    goes (step (at200 0x80 0x16 { regs [(0, 5), (1, 4)] with params := { Params.default with quirk := true } }))
      (fun t => t.getV 0 == 2 && t.getV 0xF == 0) = true := by decide
/-- V-AL-26 -/
theorem test_shl_quirk :
    goes (step (at200 0x80 0x1E { regs [(0, 1), (1, 0xC0)] with params := { Params.default with quirk := true } }))
      (fun t => t.getV 0 == 0x80 && t.getV 0xF == 1) = true := by decide
/-- V-AL-27 -/
theorem test_shl_flag_first : goes (step (at200 0x8F 0x0E (regs [(0xF, 0x81)]))) (fun t => t.getV 0xF == 2) = true := by
  decide
/-- V-AL-29: nn = 0 gives 0 whatever byte is drawn. -/
theorem test_rnd_zero_mask : ∃ t, exec (.rnd 0 0) (regs [(0, 0x55)]) = .next t ∧ t.getV 0 = 0 ∧ t.draws = 1 :=
  ⟨_, rfl, (State.getV_setV_self _ _ _).trans BitVec.and_zero, rfl⟩

/-! ## Index register and memory (section 2.3) -/

/-- V-IX-01 -/
theorem test_ldI : goes (step (at200 0xA1 0x23 State.reset)) (fun t => t.I == 0x123) = true := by decide
/-- V-IX-04 -/
theorem test_addIVx_VF :
    goes (step (at200 0xFF 0x1E { regs [(0xF, 5)] with I := 0xFFE })) (fun t => t.I == 3 && t.getV 0xF == 1) = true := by
  decide
/-- V-IX-05 -/
theorem test_addIVx_above :
    goes (step (at200 0xF0 0x1E { State.reset with I := 0x1000 })) (fun t => t.I == 0 && t.getV 0xF == 1) = true := by
  decide
/-- V-IX-08 -/
theorem test_ldFVx : goes (step (at200 0xF0 0x29 (regs [(0, 0xFF)]))) (fun t => t.I == 0x4FB) = true := by decide
/-- V-IX-09 -/
theorem test_ldBVx :
    goes (step (at200 0xF0 0x33 { regs [(0, 0x9C)] with I := 0x300 }))
      (fun t => t.byteAt 0x300 == 1 && t.byteAt 0x301 == 5 && t.byteAt 0x302 == 6 && t.I == 0x300) = true := by decide
/-- V-IX-12 -/
theorem test_ldBVx_out_of_bounds :
    goes (step (at200 0xF0 0x33 { regs [(0, 7)] with I := 0xFFE }))
      (· == { at200 0xF0 0x33 { regs [(0, 7)] with I := 0xFFE } with fault := some .dataOutOfBounds }) = true := by decide
/-- V-IX-13 and V-IX-14 -/
theorem test_ldMemVx :
    goes (step (at200 0xF2 0x55 { regs [(0, 1), (1, 2), (2, 3), (3, 4)] with I := 0x300 }))
      (fun t => t.byteAt 0x300 == 1 && t.byteAt 0x302 == 3 && t.byteAt 0x303 == 0 && t.I == 0x303) = true ∧
    goes (exec (.ldMemVx 2) { regs [(0, 1)] with I := 0x300, params := { Params.default with quirk := true } })
      (fun t => t.byteAt 0x300 == 1 && t.I == 0x300) = true := by decide
/-- V-IX-15 and V-IX-16 -/
theorem test_ldMemVx_at_the_top :
    goes (step (at200 0xF0 0x55 { regs [(0, 0xAA)] with I := 0xFFF })) (fun t => t.byteAt 0xFFF == 0xAA && t.I == 0x1000) = true ∧
    goes (step (at200 0xF1 0x55 { regs [(0, 0xAA)] with I := 0xFFF }))
      (fun t => t.byteAt 0xFFF == 0 && t.fault == some .dataOutOfBounds && t.pc == 0x200) = true := by decide
/-- V-IX-17 -/
theorem test_ldVxMem :
    goes (step (at200 0xF3 0x65 (State.storeBytes 0x300 [0x0A, 0x0B, 0x0C, 0x0D, 0x0E] { State.reset with I := 0x300 })))
      (fun t => t.getV 0 == 0x0A && t.getV 3 == 0x0D && t.getV 4 == 0 && t.I == 0x304) = true := by decide
/-- V-IX-19 -/
theorem test_ldVxMem_out_of_bounds :
    goes (step (at200 0xFF 0x65 { State.reset with I := 0xFF1 }))
      (fun t => t.fault == some .dataOutOfBounds && t.I == 0xFF1 && t.pc == 0x200) = true := by decide

/-! ## Display (section 2.4; sprite bytes stored by the test, so that nothing rests on the default font) -/

/-- V-DS-01 -/
theorem test_cls :
    goes (step (at200 0x00 0xE0 { State.reset with fb := (Bitmap.blank.setCell 5 5 true).setCell 31 63 true }))
      (fun t => t.fb.cell 5 5 == false && t.fb.cell 31 63 == false && t.redraw) = true := by decide
/-- V-DS-06 -/
theorem test_drw_clips_columns :
    goes (step (at200 0xD0 0x11 ({ regs [(0, 62)] with I := 0x300 }.storeByte 0x300 0xFF)))
      (fun t => t.fb.cell 0 61 == false && t.fb.cell 0 62 && t.fb.cell 0 63 && t.fb.cell 0 0 == false &&
        t.getV 0xF == 0 && t.redraw) = true := by decide
/-- V-DS-05 (column 70 is column 6) over a cell that is lit: it goes off and VF is 1. -/
theorem test_drw_collides :
    goes (exec (.drw 0 1 1) ({ regs [(0, 70)] with I := 0x300, fb := Bitmap.blank.setCell 0 6 true }.storeByte 0x300 0xF0))
      (fun t => t.fb.cell 0 6 == false && t.fb.cell 0 7 && t.fb.cell 0 9 && t.fb.cell 0 10 == false && t.getV 0xF == 1) = true := by
  decide
/-- V-DS-08 and V-DS-09 -/
theorem test_drw_bounds :
    goes (step (at200 0xD0 0x13 { State.reset with I := 0xFFE }))
      (fun t => t.fault == some .dataOutOfBounds && t.redraw == false && t.pc == 0x200) = true ∧
    goes (step (at200 0xD0 0x13 { regs [(1, 30)] with I := 0xFFE })) (fun t => t.fault == none && t.redraw) = true := by decide

/-! ## Timers, keys and wait for key (section 2.5) -/

/-- All keys down, none reported. -/
def allKeys : Inputs := { keys := Vector.replicate 16 true, last := none }

/-- V-TI-01 and V-TI-03 -/
theorem test_skp :
    goes (step (at200 0xE0 0x9E { regs [(0, 5)] with inp := allKeys })) (fun t => t.pc == 0x204 && t.out == []) = true ∧
    goes (step (at200 0xE0 0x9E { regs [(0, 16)] with inp := allKeys }))
      (fun t => t.pc == 0x202 && t.out == [.diag .keyOutOfRange]) = true := by decide
/-- V-TI-04 and V-TI-06 -/
theorem test_sknp :
    goes (step (at200 0xE0 0xA1 (regs [(0, 5)]))) (fun t => t.pc == 0x204 && t.out == []) = true ∧
    goes (step (at200 0xE0 0xA1 (regs [(0, 16)]))) (fun t => t.pc == 0x204 && t.out == [.diag .keyOutOfRange]) = true := by
  decide
/-- V-TI-07 -/
theorem test_ldVxDt : goes (step (at200 0xF6 0x07 { State.reset with DT := 0x3B })) (fun t => t.getV 6 == 0x3B) = true := by
  decide
/-- V-TI-08 -/
theorem test_ldDtVx : goes (step (at200 0xFA 0x15 (regs [(0xA, 0x3C)]))) (fun t => t.DT == 0x3C && t.ST == 0) = true := by
  decide
/-- V-TI-09 -/
theorem test_ldStVx : goes (step (at200 0xF2 0x18 (regs [(2, 0x10)]))) (fun t => t.ST == 0x10 && t.DT == 0) = true := by
  decide
/-- V-TI-11 -/
theorem test_ldVxK :
    goes (step (at200 0xF3 0x0A { State.reset with inp := { Inputs.none with last := some 7 } }))
      (fun t => t.paused && t.target == 3 && t.pc == 0x200 && t.getV 3 == 0) = true := by decide
/-- V-TI-12 and V-TI-13 -/
theorem test_resume :
    goes (step { State.reset with paused := true, target := 3 }) (· == { State.reset with paused := true, target := 3 }) = true ∧
    goes (step { State.reset with paused := true, target := 3, inp := { Inputs.none with last := some 0xC } })
      (fun t => t.getV 3 == 0x0C && t.paused == false && t.pc == 0x202) = true := by decide

/-! ## The operations of the host (sections 2.5 and 2.6) -/

/-- V-TI-15 and V-TI-17 -/
theorem test_tick :
    goes (step { State.reset with DT := 2, agenda := [.tick] }) (fun t => t.DT == 1 && t.ST == 0) = true ∧
    goes (step { State.reset with DT := 5, paused := true, agenda := [.tick] }) (fun t => t.DT == 5) = true := by decide
/-- V-EN-01 and V-EN-02 -/
theorem test_fetch_bounds :
    goes (step { State.reset.storeByte 0xFFF 0xE0 with pc := 0xFFE }) (fun t => t.redraw && t.pc == 0x1000) = true ∧
    goes (step { State.reset with pc := 0xFFF }) (· == { State.reset with pc := 0xFFF, fault := some .fetchOutOfBounds }) = true := by
  decide
/-- V-EN-08 and V-EN-10 -/
theorem test_exec_operation :
    goes (step { State.reset with agenda := [.exec 0x3000 false Inputs.none] }) (fun t => t.pc == 0x202) = true ∧
    goes (step { regs [(1, 4)] with agenda := [.exec 0x8016 true Inputs.none] })
      (fun t => t.getV 0 == 2 && t.pc == 0x200 && t.params == Params.default) = true := by decide
/-- V-EN-11 and V-TI-18 -/
theorem test_halted :
    stops (step { at200 0x60 0x01 State.reset with fault := some .stackOverflow }) (.halted .stackOverflow) = true ∧
    stops (step { State.reset with DT := 5, fault := some .stackOverflow, agenda := [.tick] }) (.halted .stackOverflow) = true := by
  decide
/-- V-EN-14 -/
theorem test_load_too_large : opLoad (List.replicate 3585 0xAB) State.reset = State.reset.raiseFatal .loadTooLarge := by
  have hf : State.reset.fault = none := rfl
  have hl : maxProgram < (List.replicate 3585 (0xAB : Byte)).length := by rw [List.length_replicate]; decide
  rw [opLoad, hf]
  exact if_pos hl
/-- V-EN-15, and the first bytes of a load -/
theorem test_load :
    goes (step { State.reset with agenda := [.load []] }) (· == State.reset) = true ∧
    goes (step { State.reset with agenda := [.load [0x12, 0x00]] })
      (fun t => t.byteAt 0x200 == 0x12 && t.mem.length == 1) = true := by decide
/-- V-DS-10 and the queries -/
theorem test_renderer :
    goes (step { State.reset with redraw := true, agenda := [.redrawAck] }) (fun t => t.redraw == false) = true ∧
    goes (step { State.reset with redraw := true, agenda := [.redrawQuery] })
      (fun t => t.redraw && t.out == [.redrawPending true]) = true ∧
    goes (step { State.reset with fault := some .loadTooLarge, agenda := [.faultQuery] })
      (fun t => t.out == [.faultLatch (some .loadTooLarge)]) = true := by decide

/-! ## Memory, reset and the placed word -/

/-- Writing the value of the reset image takes the entry out again (log 8). -/
theorem test_memory_canonical :
    ((State.reset.storeByte 0x300 1).storeByte 0x300 0).mem = [] ∧
    ((State.reset.storeByte 0x301 1).storeByte 0x300 2).mem = [(0x300, 2), (0x301, 1)] := by decide
/-- V-EN-12 -/
theorem test_reset : State.reset.pc = 0x200 ∧ State.reset.mem = [] ∧ State.reset.fb = Bitmap.blank ∧
    State.reset.byteAt 0x050 = 0 ∧ State.reset.byteAt 0x200 = 0 := by decide
theorem test_withFetchWord :
    goes (step (State.reset.withFetchWord 16 0x6A5C)) (fun t => t.getV 0xA == 0x5C && t.pc == 0x202) = true ∧
    goes (step ((regs [(0, 0xF0), (1, 0x3C)]).withFetchWord 16 0x8011)) (fun t => t.getV 0 == 0xFC) = true ∧
    State.reset.readyToFetch = State.reset := by decide

/-! ## Witnesses: for every statement with hypotheses, a state and operands that meet them, clause by clause -/

/-- Room for the last entry, and none left. -/
theorem witness_CallPushesPcOrOverflows :
    { State.reset with sp := 15 }.sp < 16 ∧ { State.reset with sp := 16 }.sp = 16 := by decide

/-- One entry, sixteen entries, none. -/
theorem witness_RetPopsOrUnderflows :
    (0 < { State.reset with sp := 1 }.sp ∧ { State.reset with sp := 1 }.sp ≤ 16) ∧
    (0 < { State.reset with sp := 16 }.sp ∧ { State.reset with sp := 16 }.sp ≤ 16) ∧ State.reset.sp = 0 := by decide

/-- Legacy mode; quirk mode with the lowest and the highest register. -/
theorem witness_JpOffAddsRegister :
    State.reset.params.quirk = false ∧
    ((State.reset.setQuirk true).params.quirk = true ∧ (0x0 : Reg).val = (0x0FF : Imm12).toNat / 0x100) ∧
    ((State.reset.setQuirk true).params.quirk = true ∧ (0xF : Reg).val = (0xFFF : Imm12).toNat / 0x100) := by decide

/-- The host's default CYCLE, and one that it calls on inputs of its own. -/
theorem reset_callsCycle (a : Word) :
    { State.reset with pc := a }.CallsCycle Inputs.none [] ∧
    { State.reset with pc := a, agenda := [.cycle allKeys, .tick] }.CallsCycle allKeys [.tick] :=
  ⟨.inl ⟨rfl, rfl, rfl⟩, .inr rfl⟩

/-- The word 0x0000 at 0x200, and at 0xFFE, the last address with a whole word; `reset_callsCycle` gives both CYCLEs. -/
theorem witness_UnrecognizedIsNoOp :
    ((∃ inp rest, State.reset.CallsCycle inp rest) ∧ State.reset.fault = none ∧ State.reset.paused = false ∧
      State.reset.pc.toNat ≤ 0xFFE ∧ State.reset.wordAt State.reset.pc.toNat = 0 ∧
      decode State.reset.params 0 = .unrecognized 0) ∧
    ({ State.reset with pc := 0xFFE, agenda := [.cycle allKeys, .tick] }.CallsCycle allKeys [.tick] ∧
      { State.reset with pc := 0xFFE }.pc.toNat ≤ 0xFFE ∧ { State.reset with pc := 0xFFE }.wordAt 0xFFE = 0) :=
  ⟨⟨⟨_, _, (reset_callsCycle 0x200).1⟩, by decide⟩, (reset_callsCycle 0xFFE).2, by decide⟩

theorem witness_AddRegCarries : (0x0 : Reg) ≠ 0xF ∧ (0xE : Reg) ≠ 0xF := by decide

/-- Each flag value, and a register that is not F. -/
theorem witness_SubComparesThenSubtracts :
    (1 = (if ((regs [(0, 2), (1, 1)]).getV 1).toNat < ((regs [(0, 2), (1, 1)]).getV 0).toNat then 1 else 0)) ∧
    (0 = (if ((regs [(0, 2), (1, 2)]).getV 1).toNat < ((regs [(0, 2), (1, 2)]).getV 0).toNat then 1 else 0)) ∧
    (0xE : Reg) ≠ 0xF := by decide

theorem witness_SubnComparesThenSubtracts :
    (1 = (if ((regs [(0, 2), (1, 1)]).getV 1).toNat < ((regs [(0, 2), (1, 1)]).getV 0).toNat then 1 else 0)) ∧
    (0 = (if ((regs [(0, 1), (1, 2)]).getV 1).toNat < ((regs [(0, 1), (1, 2)]).getV 0).toNat then 1 else 0)) ∧
    (0x0 : Reg) ≠ 0xF := by decide

/-- The shifted byte in both modes; x other than F, and x = F. -/
theorem witness_ShrShiftsRight :
    (5 = (if (regs [(0, 5), (1, 4)]).params.quirk then 4 else ((regs [(0, 5), (1, 4)]).getV 0).toNat)) ∧
    (4 = (if (State.setQuirk true (regs [(0, 5), (1, 4)])).params.quirk
      then ((State.setQuirk true (regs [(0, 5), (1, 4)])).getV 1).toNat else 5)) ∧
    (0xE : Reg) ≠ 0xF ∧ (0xF : Reg) = 0xF := by decide

theorem witness_ShlShiftsLeft :
    (0x81 = (if (regs [(0, 0x81), (1, 4)]).params.quirk then 4 else ((regs [(0, 0x81), (1, 4)]).getV 0).toNat)) ∧
    (4 = (if (State.setQuirk true (regs [(0, 0x81), (1, 4)])).params.quirk
      then ((State.setQuirk true (regs [(0, 0x81), (1, 4)])).getV 1).toNat else 0x81)) ∧
    (0xE : Reg) ≠ 0xF ∧ (0xF : Reg) = 0xF := by decide

theorem witness_RndMasksAFreeByte : (0xFE : Byte).getLsbD 0 = false ∧ (0x7F : Byte).getLsbD 7 = false := by decide

/-- The highest I in bounds, on a canonical memory, and the lowest out of bounds. -/
theorem witness_BcdStoresThreeDigits :
    ({ State.reset with I := 0xFFD }.I.toNat + 2 ≤ 0xFFF ∧
      Memory.wf (resetByte State.reset.params) { State.reset with I := 0xFFD }.mem = true) ∧
    0xFFF < { State.reset with I := 0xFFE }.I.toNat + 2 := by decide

/-- In bounds with x = 0 and x = F at the top of memory, and one past it. -/
theorem witness_StoreRegistersToMemory :
    ({ State.reset with I := 0xFFF }.I.toNat + (0 : Reg).val ≤ 0xFFF ∧
      Memory.wf (resetByte State.reset.params) { State.reset with I := 0xFFF }.mem = true ∧ (0 : Reg) ≤ 0) ∧
    ({ State.reset with I := 0xFF0 }.I.toNat + (0xF : Reg).val ≤ 0xFFF ∧ (0xF : Reg) ≤ 0xF) ∧
    0xFFF < { State.reset with I := 0x1000 }.I.toNat + (0 : Reg).val ∧
    0xFFF < { State.reset with I := 0xFF1 }.I.toNat + (0xF : Reg).val := by decide

theorem witness_LoadRegistersFromMemory :
    ({ State.reset with I := 0xFFF }.I.toNat + (0 : Reg).val ≤ 0xFFF ∧ (0 : Reg) ≤ 0) ∧
    ({ State.reset with I := 0xFF0 }.I.toNat + (0xF : Reg).val ≤ 0xFFF ∧ (0xF : Reg) ≤ 0xF) ∧
    0xFFF < { State.reset with I := 0x1000 }.I.toNat + (0 : Reg).val ∧
    0xFFF < { State.reset with I := 0xFF1 }.I.toNat + (0xF : Reg).val := by decide

theorem witness_ClsClearsEveryCell : 31 < 32 ∧ 63 < 64 ∧ 0 < 32 := by decide

/-- A byte 0xFF at the last address, drawn at the origin. -/
def spriteAtTop : State := { State.reset with I := 0xFFF }.storeByte 0xFFF 0xFF

/-- In memory: one row at 0xFFF, no row at all, and two rows of which the bottom edge clips one. Out of memory: two
rows. With a lit cell under the sprite, and with none. -/
theorem witness_DrwTurnsOverTheSpritesCells :
    spriteAtTop.SpriteInMemory (spriteAtTop.getV 1) (1 : Fin 16) ∧
    { State.reset with I := 0x1000 }.SpriteInMemory (State.reset.getV 1) (0 : Fin 16) ∧
    ((spriteAtTop.setV 1 31).SpriteInMemory ((spriteAtTop.setV 1 31).getV 1) (2 : Fin 16)) ∧
    ¬spriteAtTop.SpriteInMemory (spriteAtTop.getV 1) (2 : Fin 16) ∧
    (∃ r c, { spriteAtTop with fb := Bitmap.blank.setCell 0 7 true }.SpriteSets 0 0 (1 : Fin 16) r c ∧
      (Bitmap.blank.setCell 0 7 true).cell r c = true) ∧
    ¬(∃ r c, spriteAtTop.SpriteSets 0 0 (1 : Fin 16) r c ∧ spriteAtTop.fb.cell r c = true) := by
  refine ⟨.inr (by decide), .inl (by decide), .inr (by decide), ?_, ⟨0, 7, ⟨⟨by decide, by decide⟩, by decide⟩⟩, ?_⟩
  · unfold State.SpriteInMemory; decide
  · rintro ⟨r, c, -, h⟩
    have : spriteAtTop.fb.cell r c = false := Bitmap.cell_blank r c
    rw [this] at h; cases h

/-- A sprite on a blank display: its first draw lights (0, 7), so the second meets it. A sprite of no rows meets
nothing. -/
theorem witness_DrawingTwiceRestoresTheBitmap :
    (0 : Reg) ≠ 0xF ∧ (1 : Reg) ≠ 0xF ∧ spriteAtTop.SpriteInMemory (spriteAtTop.getV 1) (1 : Fin 16) ∧
    (∃ t, exec (.drw 0 1 1) spriteAtTop = .next t ∧
      ∃ r c, spriteAtTop.SpriteSets (spriteAtTop.getV 0) (spriteAtTop.getV 1) (1 : Fin 16) r c ∧ t.fb.cell r c = true) ∧
    (∃ r c, spriteAtTop.SpriteSets (spriteAtTop.getV 0) (spriteAtTop.getV 1) (1 : Fin 16) r c ∧
      spriteAtTop.fb.cell r c = false) ∧
    (∃ t, exec (.drw 0 1 0) spriteAtTop = .next t ∧
      ¬∃ r c, spriteAtTop.SpriteSets (spriteAtTop.getV 0) (spriteAtTop.getV 1) (0 : Fin 16) r c ∧ t.fb.cell r c = true) := by
  refine ⟨by decide, by decide, .inr (by decide), ⟨_, rfl, 0, 7, ⟨⟨by decide, by decide⟩, by decide⟩⟩,
    ⟨0, 7, ⟨⟨by decide, by decide⟩, by decide⟩⟩, ⟨_, rfl, ?_⟩⟩
  rintro ⟨r, c, ⟨⟨h1, h2, -⟩, -⟩, -⟩
  exact absurd h2 (Nat.not_lt.2 h1)

/-- The highest key code, and the first code that is none. -/
theorem witness_KeySkips :
    ((regs [(0, 15)]).getV 0).toNat = (15 : Reg).val ∧ 16 ≤ ((regs [(0, 16)]).getV 0).toNat ∧
    ((regs [(0, 0)]).getV 0).toNat = (0 : Reg).val := by decide

/-- A machine that waits: the default CYCLE without a reported key, and a CYCLE on the agenda that brings one. -/
theorem witness_PausedCycleOnlyResumes :
    { State.reset with paused := true }.fault = none ∧ { State.reset with paused := true }.paused = true ∧
    ({ State.reset with paused := true }.CallsCycle Inputs.none [] ∧ Inputs.none.last = none) ∧
    ({ State.reset with paused := true, agenda := [.cycle { Inputs.none with last := some 15 }] }.CallsCycle
      { Inputs.none with last := some 15 } [] ∧ { Inputs.none with last := some 15 }.last = some 15) :=
  ⟨rfl, rfl, ⟨.inl ⟨rfl, rfl, rfl⟩, rfl⟩, .inr rfl, rfl⟩

theorem witness_TickCountsDownToZero :
    ({ State.reset with agenda := [.tick] }.fault = none ∧ { State.reset with agenda := [.tick] }.agenda = [HostOp.tick] ∧
      { State.reset with agenda := [.tick] }.paused = false) ∧
    { State.reset with agenda := [.tick], paused := true }.paused = true := by decide

theorem witness_FamilyZeroFollowsItsKey :
    (0x00E0 : Word) = hexWord (0x0 : Reg) (0x0 : Reg) (0xE : Reg) (0x0 : Reg) ∧ Params.default.family0Key = .lowByte ∧
    { Params.default with family0Key := .lowNibble }.family0Key = .lowNibble ∧
    { Params.default with family0Key := .fullWord }.family0Key = .fullWord := by decide

theorem witness_UnrecognizedWordsAreExactlyListed :
    (0xF0FF : Word) = hexWord (0xF : Fin 16) (0x0 : Fin 16) (0xF : Fin 16) (0xF : Fin 16) := by decide

theorem witness_DecodeOfEncode :
    (Instr.ldMemVx 0xF).wellFormed Params.default = true ∧ (Instr.orReg 0xF 0xF).wellFormed Params.table = true ∧
    (Instr.unrecognized 0x0000).wellFormed Params.default = true := by decide

theorem witness_DecodedInstructionIsWellFormed : decode Params.default 0xF0FF = .unrecognized 0xF0FF := by decide

/-- A CYCLE of the host's default and one on the agenda, each with an instruction that completes and with one that is
fatal, at 0x200 and at 0xFFE. -/
theorem witness_StepRunsTheDecodedInstruction :
    (State.reset.fault = none ∧ State.reset.paused = false ∧ State.reset.pc.toNat ≤ 0xFFE ∧ State.reset.agenda = [] ∧
      { State.reset with pc := 0xFFE }.pc.toNat ≤ 0xFFE) ∧
    (∃ t, exec (decode State.reset.params (State.reset.wordAt State.reset.pc.toNat))
      { State.reset with pc := State.reset.pc + 2 } = .next t ∧ t.fault = none) ∧
    (decode State.reset.params ((at200 0x23 0x00 State.reset).wordAt 0x200) = .call 0x300 ∧
      ∃ t, exec (.call 0x300) { at200 0x23 0x00 State.reset with pc := 0x202, sp := 16 } = .next t ∧
        t.fault = some .stackOverflow) ∧
    ({ State.reset with agenda := [.cycle allKeys] }.agenda = .cycle allKeys :: [] ∧
      ∃ t, exec (decode State.reset.params (State.reset.wordAt State.reset.pc.toNat))
        { State.reset with pc := State.reset.pc + 2, inp := allKeys, agenda := [] } = .next t ∧ t.fault = none) :=
  ⟨by decide, ⟨_, rfl, rfl⟩, ⟨by decide, _, rfl, rfl⟩, rfl, _, rfl, rfl⟩

/-- The lowest and the highest pc outside, with either CYCLE. -/
theorem witness_FetchOutOfBoundsIsFatal :
    (∀ a, { State.reset with pc := a }.fault = none ∧ { State.reset with pc := a }.paused = false ∧
      { State.reset with pc := a }.CallsCycle Inputs.none [] ∧
      { State.reset with pc := a, agenda := [.cycle allKeys, .tick] }.CallsCycle allKeys [.tick]) ∧
    0xFFE < { State.reset with pc := 0xFFF }.pc.toNat ∧ 0xFFE < { State.reset with pc := 0xFFFF }.pc.toNat :=
  ⟨fun a => ⟨rfl, rfl, reset_callsCycle a⟩, by decide⟩

/-- An EXEC that completes, and one that is fatal. -/
theorem witness_ExecOperationRunsAWord :
    ({ State.reset with agenda := [.exec 0x3000 true allKeys] }.fault = none ∧
      { State.reset with agenda := [.exec 0x3000 true allKeys] }.agenda = .exec 0x3000 true allKeys :: []) ∧
    (∃ u, exec (decode State.reset.params 0x3000)
      { State.reset with inp := allKeys, agenda := [], params := { State.reset.params with quirk := true } } = .next u ∧
      u.fault = none) ∧
    (∃ u, exec (decode State.reset.params 0xF033)
      { State.reset with I := 0xFFE, inp := allKeys, agenda := [], params := { State.reset.params with quirk := true } } =
        .next u ∧ u.fault = some .dataOutOfBounds) := ⟨⟨rfl, rfl⟩, ⟨_, rfl, rfl⟩, _, rfl, rfl⟩

/-- The longest program that fits, and one byte more. -/
theorem witness_LoadWritesTheProgram :
    (∃ s : State, s.fault = none ∧ s.agenda = .load (List.replicate 3584 0xAB) :: [] ∧
      (List.replicate 3584 (0xAB : Byte)).length ≤ 3584 ∧ Memory.wf (resetByte s.params) s.mem = true ∧
      3583 < (List.replicate 3584 (0xAB : Byte)).length) ∧
    (∃ s : State, s.fault = none ∧ s.agenda = .load (List.replicate 3585 0xAB) :: [] ∧
      3584 < (List.replicate 3585 (0xAB : Byte)).length) := by
  refine ⟨⟨{ State.reset with agenda := [.load (List.replicate 3584 0xAB)] }, rfl, rfl, ?_, rfl, ?_⟩,
    ⟨{ State.reset with agenda := [.load (List.replicate 3585 0xAB)] }, rfl, rfl, ?_⟩⟩ <;>
    rw [List.length_replicate] <;> decide

theorem witness_QueriesAndAcknowledgment :
    State.reset.fault = none ∧ { State.reset with agenda := [.fbRead] }.agenda = .fbRead :: [] ∧
    { State.reset with agenda := [.redrawQuery] }.agenda = .redrawQuery :: [] ∧
    { State.reset with agenda := [.faultQuery] }.agenda = .faultQuery :: [] ∧
    { State.reset with agenda := [.redrawAck] }.agenda = .redrawAck :: [] := by decide

/-- A failed machine, with an empty agenda, each query, and an operation that is none. -/
theorem witness_FailedMachineOnlyAnswersQueries :
    { State.reset with fault := some .stackOverflow }.fault = some .stackOverflow ∧
    { State.reset with fault := some .stackOverflow }.agenda = [] ∧
    (∀ op : HostOp, { State.reset with fault := some .stackOverflow, agenda := [op] }.agenda = op :: []) ∧
    HostOp.tick ≠ .fbRead ∧ HostOp.tick ≠ .redrawQuery ∧ HostOp.tick ≠ .faultQuery :=
  ⟨rfl, rfl, fun _ => rfl, by decide, by decide, by decide⟩

/-- A CYCLE on the agenda, an EXEC, and a LOAD too long, each fatal; the LOAD keeps the inputs held. -/
theorem witness_FatalConditionsArePrecise :
    (∃ t, step { State.reset with pc := 0xFFF, agenda := [.cycle allKeys] } = .next t ∧
      t.fault = some .fetchOutOfBounds ∧ t.inp = allKeys) ∧
    (∃ t, step { State.reset with sp := 16, agenda := [.exec 0x2300 false allKeys] } = .next t ∧
      t.fault = some .stackOverflow ∧ t.inp = allKeys) ∧
    (∃ t, step { State.reset with inp := allKeys, agenda := [.load (List.replicate 3585 0xAB)] } = .next t ∧
      t.fault = some .loadTooLarge ∧ t.inp = allKeys) := by
  refine ⟨⟨_, rfl, rfl, rfl⟩, ⟨_, rfl, rfl, rfl⟩, { State.reset with inp := allKeys, fault := some .loadTooLarge }, ?_, rfl, rfl⟩
  rw [step_of_no_fault rfl]
  simp only [State.nextOp, perform, opLoad, State.popAgenda, State.reset, State.create]
  rw [if_pos (by rw [List.length_replicate]; decide)]
  rfl

/-- One of each kind. -/
theorem witness_OnlyFiveInstructionsAreFatal :
    (∃ t, exec (.call 0) { State.reset with sp := 16 } = .next t ∧ t.fault ≠ { State.reset with sp := 16 }.fault) ∧
    (∃ t, exec (.ldVxMem 1) { State.reset with I := 0xFFF } = .next t ∧ t.fault ≠ { State.reset with I := 0xFFF }.fault) ∧
    (∃ t, exec (.drw 0 1 2) spriteAtTop = .next t ∧ t.fault ≠ spriteAtTop.fault) :=
  ⟨⟨_, rfl, by decide⟩, ⟨_, rfl, by decide⟩, ⟨_, rfl, by decide⟩⟩

/-- The jump to itself at the last address with a whole word. -/
def doneAtTop : State := ({ State.reset with pc := 0xFFE }.storeByte 0xFFE 0x1F).storeByte 0xFFF 0xFE

/-- At 0x200, and at the highest pc, 0xFFE. -/
theorem witness_DoneStateStays :
    ((at200 0x12 0x00 State.reset).done ∧ (at200 0x12 0x00 State.reset).agenda = []) ∧
    (doneAtTop.done ∧ doneAtTop.agenda = [] ∧ doneAtTop.pc = 0xFFE) :=
  ⟨⟨⟨rfl, rfl, by decide, by decide⟩, rfl⟩, ⟨rfl, rfl, by decide, by decide⟩, rfl, rfl⟩

theorem witness_ResetState :
    State.reset = State.create Params.default ∧ 0x50 ≤ 0x50 ∧ 0x50 < 0x1000 ∧ 0x50 ≤ 0xFFF ∧ 0xFFF < 0x1000 ∧ 15 < 16 :=
  ⟨rfl, by decide⟩

theorem witness_FontIsPresentFromReset : 0 < 80 ∧ 79 < 80 ∧ 0x50 ≤ 0x50 ∧ 0x50 ≤ 0x1FF ∧ 0x1FF ≤ 0x1FF := by decide

theorem witness_EveryStepKeepsTheInvariant : State.reset.Inv ∧ ∃ t, step State.reset = .next t :=
  ⟨⟨rfl, Nat.zero_le _, Nat.zero_le _⟩, _, rfl⟩

theorem witness_ParametersNeverChange : ∃ t, step State.reset = .next t := ⟨_, rfl⟩

/-- A jump meets the hypotheses of every clause, in legacy mode and in quirk mode; FX55 those of the clause on I in quirk
mode. -/
theorem witness_OnlyTheNamedInstructionsWrite :
    ((∃ t, exec (.jp 0) State.reset = .next t) ∧ (∀ x, Instr.jp 0 ≠ .ldBVx x) ∧ (∀ x, Instr.jp 0 ≠ .ldMemVx x) ∧
      (∀ nnn, Instr.jp 0 ≠ .ldI nnn) ∧ (∀ x, Instr.jp 0 ≠ .addIVx x) ∧ (∀ x, Instr.jp 0 ≠ .ldFVx x) ∧
      (∀ x, Instr.jp 0 ≠ .ldVxMem x) ∧ (∀ nnn, Instr.jp 0 ≠ .call nnn) ∧ Instr.jp 0 ≠ .ret ∧
      (∀ x, Instr.jp 0 ≠ .ldDtVx x) ∧ (∀ x, Instr.jp 0 ≠ .ldStVx x) ∧ (∀ x, Instr.jp 0 ≠ .ldVxK x) ∧
      Instr.jp 0 ≠ .cls ∧ (∀ x y n, Instr.jp 0 ≠ .drw x y n)) ∧
    ((∃ t, exec (.ldMemVx 0) (State.reset.setQuirk true) = .next t) ∧
      ((State.reset.setQuirk true).params.quirk = false → (∀ x, Instr.ldMemVx 0 ≠ .ldMemVx x) ∧ ∀ x, Instr.ldMemVx 0 ≠ .ldVxMem x)) := by
  refine ⟨⟨⟨_, rfl⟩, ?_⟩, ⟨_, rfl⟩, fun h => by cases h⟩
  simp

/-- An acknowledgment, and a resumption. -/
theorem witness_OnlyTheNamedOperationsClear :
    (∃ t, step { State.reset with redraw := true, agenda := [.redrawAck] } = .next t ∧ t.redraw = false) ∧
    (∃ t, step { State.reset with paused := true, inp := { Inputs.none with last := some 7 } } = .next t ∧
      t.paused = false) := ⟨⟨_, rfl, rfl⟩, _, rfl, rfl⟩

theorem witness_SoundTimerAndRedrawAreNotRead : ∀ x, Instr.cls ≠ .ldStVx x := by simp

/-- One live entry; the stacks differ in the entry above it. -/
theorem witness_StaleStackEntriesAreNotObservable :
    (∃ t, exec .ret { State.reset with sp := 1 } = .next t) ∧ { State.reset with sp := 1 }.sp ≤ 16 ∧
    (∀ k, k < 1 → { State.reset with sp := 1, stack := State.reset.stack.set 1 7 }.stackAt k =
      { State.reset with sp := 1 }.stackAt k) ∧
    { State.reset with sp := 1, stack := State.reset.stack.set 1 7 }.stackAt 1 ≠ { State.reset with sp := 1 }.stackAt 1 := by
  refine ⟨⟨_, rfl⟩, by decide, fun k hk => ?_, by decide⟩
  obtain rfl : k = 0 := by omega
  decide

theorem witness_QuirkChangesOnlyFiveInstructions :
    (∀ x y, Instr.cls ≠ .shr x y) ∧ (∀ x y, Instr.cls ≠ .shl x y) ∧ (∀ nnn, Instr.cls ≠ .jpOff nnn) ∧
    (∀ x, Instr.cls ≠ .ldMemVx x) ∧ (∀ x, Instr.cls ≠ .ldVxMem x) := by simp

/-- The last free entry; the CALL at 0x200, the RET at 0x300. -/
def callState : State := { (at200 0x23 0x00 State.reset).storeByte 0x301 0xEE with sp := 15 }

theorem witness_CallThenRetComesBack :
    callState.Running ∧ callState.sp < 16 ∧ callState.pc.toNat ≤ 0xFFE ∧ (0x300 : Imm12).toNat ≤ 0xFFE ∧
    callState.wordAt callState.pc.toNat = hexWordNNN 0x2 0x300 ∧ callState.wordAt (0x300 : Imm12).toNat = 0x00EE :=
  ⟨⟨rfl, rfl, rfl⟩, by decide, by decide, by decide, by decide, by decide⟩

/-- The last cell, and the last address with a whole word. -/
theorem witness_StoresAreReadBackAndFetched :
    Memory.wf (resetByte State.reset.params) State.reset.mem = true ∧ 0xFFF < 0x1000 ∧
    ({ State.reset with pc := 0xFFE }.pc.toNat = 0xFFE ∧ 0xFFE ≤ 0xFFE) := by decide

end Sys2Proof.Tests
end

section
/-! PROOFS. The statements of 30_encoding.md about what the decoder does not recognize: R80 and R81 (families 0xE and
0xF), R82 (the list of unrecognized words under the default parameters). -/

namespace Sys2Proof.Proofs

open Sys2Proof.Machine

/-! ## Families 0xE and 0xF by `nn` (R80, R81) -/

/-- Settles O33: the fields of the packed word are `x` and `nn`, and the two families' tables are keyed on `nn`. -/
theorem familiesEAndFDispatchOnNn : Obligations.FamiliesEAndFDispatchOnNn := by
  intro p x nn
  constructor
  · rw [hexWordNN_eq]
    simp [decode, decodeFamilyE]
  · rw [hexWordNN_eq]
    simp [decode, decodeFamilyF]

/-! ## The unrecognized words of each family (R77, R79, R80, R81, with the default parameters) -/

theorem decodeFamily0_default_eq_unrecognized_iff (w : Word) :
    decodeFamily0 Params.default w = .unrecognized w ↔ ¬(fieldNN w = 0xE0 ∨ fieldNN w = 0xEE) := by
  simp only [decodeFamily0, Params.default]
  split_ifs <;> simp_all

theorem decodeFamily8_default_eq_unrecognized_iff (w : Word) :
    decodeFamily8 Params.default w = .unrecognized w ↔
      fieldN w = 0x1 ∨ (0x8 ≤ fieldN w ∧ fieldN w ≤ 0xD) ∨ fieldN w = 0xF := by
  simp only [decodeFamily8, Params.default]
  generalize fieldN w = n
  fin_cases n <;> simp

theorem decodeFamilyE_eq_unrecognized_iff (w : Word) :
    decodeFamilyE w = .unrecognized w ↔ ¬(fieldNN w = 0x9E ∨ fieldNN w = 0xA1) := by
  unfold decodeFamilyE
  split_ifs <;> simp_all

theorem decodeFamilyF_eq_unrecognized_iff (w : Word) :
    decodeFamilyF w = .unrecognized w ↔
      ¬(fieldNN w = 0x07 ∨ fieldNN w = 0x0A ∨ fieldNN w = 0x15 ∨ fieldNN w = 0x18 ∨ fieldNN w = 0x1E ∨
        fieldNN w = 0x29 ∨ fieldNN w = 0x33 ∨ fieldNN w = 0x55 ∨ fieldNN w = 0x65) := by
  unfold decodeFamilyF
  split_ifs <;> simp_all

/-- Only families 0x0, 0x8, 0xE and 0xF have unrecognized words when `P_STRICT_59` is false (R78). -/
theorem decode_default_eq_unrecognized_iff (w : Word) :
    decode Params.default w = .unrecognized w ↔
      ((fieldF w).toNat = 0x0 ∧ decodeFamily0 Params.default w = .unrecognized w) ∨
      ((fieldF w).toNat = 0x8 ∧ decodeFamily8 Params.default w = .unrecognized w) ∨
      ((fieldF w).toNat = 0xE ∧ decodeFamilyE w = .unrecognized w) ∨
      ((fieldF w).toNat = 0xF ∧ decodeFamilyF w = .unrecognized w) := by
  have hlt := (fieldF w).isLt
  unfold decode
  generalize (fieldF w).toNat = f at *
  interval_cases f <;> simp [nAllowed59, Params.default]

/-- R99: an unrecognized word changes nothing. -/
theorem exec_unrecognized (w : Word) (s : State) : exec (.unrecognized w) s = .next s := rfl

/-- Settles O35: the decoder's list of each family, where R82's digits are the fields `f` and `n`, and in families 0x0,
0xE and 0xF the field `nn`. -/
theorem unrecognizedWordsAreExactlyListed : Obligations.UnrecognizedWordsAreExactlyListed := by
  rintro f x y n w rfl
  obtain ⟨hf, -, -, hn⟩ := fields_hexWord f x y n
  refine ⟨?_, exec_unrecognized _⟩
  rw [decode_default_eq_unrecognized_iff, decodeFamily0_default_eq_unrecognized_iff,
    decodeFamily8_default_eq_unrecognized_iff, decodeFamilyE_eq_unrecognized_iff, decodeFamilyF_eq_unrecognized_iff,
    hf, hn]
  -- Two digits `y = c ∧ n = d` of R82's list are one equation on `nn`, whose byte computes to the decoder's own.
  simp only [and_or_left, or_assoc, ← fieldNN_hexWord_iff f x y n, Fin.ext_iff (a := f)]
  rfl

end Sys2Proof.Proofs
end

section
/-! PROOFS. The statement of 41_control_flow.md about the unconditional jump: R112 (1NNN). -/

namespace Sys2Proof.Proofs

open Sys2Proof.Machine

/-- Every part but pc is kept by its `setPc` law of Laws/State; for pc itself the frame claims nothing. -/
theorem setPc_changesOnly (s : State) (a : Word) : ChangesOnly [] [.pc] noCell s (s.setPc a) := by
  constructor <;> simp

/-- R76, R112: family 0x1 has one instruction, whatever the parameters. -/
theorem isWordOf_jp (nnn : Imm12) : IsWordOf (hexWordNNN 0x1 nnn) (.jp nnn) := by
  intro p
  rw [hexWordNNN_eq]
  simp [decode]

/-- R112: JP answers the state with pc set to `nnn`. -/
theorem exec_jp (nnn : Imm12) (s : State) : exec (.jp nnn) s = .next (s.setPc (zextAddr nnn)) := rfl

/-- Settles O1: the next state is `s.setPc (zextAddr nnn)`, whose pc and frame are the laws of `setPc`. -/
theorem jpSetsPcToNnn : Obligations.JpSetsPcToNnn := fun s nnn =>
  ⟨isWordOf_jp nnn, s.setPc (zextAddr nnn), exec_jp nnn s, zextAddr_toNat nnn, setPc_changesOnly s _⟩

end Sys2Proof.Proofs
end

section
/-! PROOFS. The statements of 42_alu.md about the register writes that leave VF alone: R131 (6XNN), R132 (7XNN), R133
(8XY0), R135 (8XY2) and R136 (8XY3). -/

namespace Sys2Proof.Proofs

open Sys2Proof.Machine

/-! ## The words (R76, R79) -/

theorem isWordOf_ldImm (x : Reg) (nn : Byte) : IsWordOf (hexWordNN 0x6 x nn) (.ldImm x nn) := by
  intro p
  rw [hexWordNN_eq]
  simp [decode]

theorem isWordOf_addImm (x : Reg) (nn : Byte) : IsWordOf (hexWordNN 0x7 x nn) (.addImm x nn) := by
  intro p
  rw [hexWordNN_eq]
  simp [decode]

/-- R79: a word `8xyn` goes to the table of family 0x8, with its digits as the fields. -/
theorem decode_hexWord_family8 (p : Params) (x y : Reg) (n : Nat) (hn : n < 16) :
    decode p (hexWord 0x8 x y n) = decodeFamily8 p (packXYN 0x8 x y ⟨n, hn⟩) := by
  rw [hexWord_eq 0x8 n x y hn]
  simp [decode]

theorem isWordOf_ldReg (x y : Reg) : IsWordOf (hexWord 0x8 x y 0x0) (.ldReg x y) := by
  intro p
  rw [decode_hexWord_family8 p x y 0x0 (by decide)]
  simp [decodeFamily8]

theorem isWordOf_andReg (x y : Reg) : IsWordOf (hexWord 0x8 x y 0x2) (.andReg x y) := by
  intro p
  rw [decode_hexWord_family8 p x y 0x2 (by decide)]
  simp [decodeFamily8]

theorem isWordOf_xorReg (x y : Reg) : IsWordOf (hexWord 0x8 x y 0x3) (.xorReg x y) := by
  intro p
  rw [decode_hexWord_family8 p x y 0x3 (by decide)]
  simp [decodeFamily8]

/-! ## Each instruction as one register write -/

/-- Every other register is kept by `State.getV_setV`, every part and every cell by the `setV` laws of Laws/State and
Laws/Ops. -/
theorem setV_changesOnly (s : State) (x : Reg) (v : Byte) : ChangesOnly [x] [] noCell s (s.setV x v) := by
  constructor
  case regs_kept =>
    intro r hr
    rw [State.getV_setV, if_neg (List.ne_of_not_mem_cons hr)]
  all_goals simp

theorem exec_ldImm (x : Reg) (nn : Byte) (s : State) : exec (.ldImm x nn) s = .next (s.setV x nn) := rfl

theorem exec_addImm (x : Reg) (nn : Byte) (s : State) :
    exec (.addImm x nn) s = .next (s.setV x (s.getV x + nn)) := rfl

theorem exec_ldReg (x y : Reg) (s : State) : exec (.ldReg x y) s = .next (s.setV x (s.getV y)) := rfl

theorem exec_andReg (x y : Reg) (s : State) :
    exec (.andReg x y) s = .next (s.setV x (s.getV x &&& s.getV y)) := rfl

theorem exec_xorReg (x y : Reg) (s : State) :
    exec (.xorReg x y) s = .next (s.setV x (s.getV x ^^^ s.getV y)) := rfl

/-- What the statements of this family share: an instruction whose meaning is one write of `v` to V[x] answers a next
state, V[x] there has what holds of `v`, and nothing but V[x] changes. -/
theorem next_of_exec_eq_setV (P : Byte → Prop) {i : Instr} {s : State} {x : Reg} {v : Byte}
    (hexec : exec i s = .next (s.setV x v)) (hv : P v) :
    ∃ t, exec i s = .next t ∧ P (t.getV x) ∧ ChangesOnly [x] [] noCell s t :=
  ⟨s.setV x v, hexec, (State.getV_setV_self s x v).symm ▸ hv, setV_changesOnly s x v⟩

/-! ## The statements -/

/-- Settles O8: the value written is the immediate itself. -/
theorem ldImmWritesRegister : Obligations.LdImmWritesRegister := fun s x nn =>
  ⟨isWordOf_ldImm x nn, next_of_exec_eq_setV (· = nn) (exec_ldImm x nn s) rfl⟩

/-- Settles O9: addition of bytes is addition modulo 256. -/
theorem addImmWrapsWithoutFlag : Obligations.AddImmWrapsWithoutFlag := fun s x nn =>
  ⟨isWordOf_addImm x nn,
    next_of_exec_eq_setV (·.toNat = ((s.getV x).toNat + nn.toNat) % 256) (exec_addImm x nn s)
      (BitVec.toNat_add (s.getV x) nn)⟩

/-- Settles O10: one register write each, of a value that is V[y] itself or is given bit by bit by the library. -/
theorem copyAndXorWriteRegister : Obligations.CopyAndXorWriteRegister := by
  intro s x y
  refine ⟨isWordOf_ldReg x y, isWordOf_andReg x y, isWordOf_xorReg x y, ?copy, ?and, ?xor⟩
  case copy => exact next_of_exec_eq_setV (· = s.getV y) (exec_ldReg x y s) rfl
  case and =>
    exact next_of_exec_eq_setV (fun v => ∀ k, v.getLsbD k = ((s.getV x).getLsbD k && (s.getV y).getLsbD k))
      (exec_andReg x y s) fun _ => BitVec.getLsbD_and
  case xor =>
    exact next_of_exec_eq_setV (fun v => ∀ k, v.getLsbD k = ((s.getV x).getLsbD k ^^ (s.getV y).getLsbD k))
      (exec_xorReg x y s) fun _ => BitVec.getLsbD_xor

end Sys2Proof.Proofs
end

section
/-! PROOFS. The statement of 43_index_memory.md about the loads of I: R161 (ANNN) and R163 (FX29). -/

namespace Sys2Proof.Proofs

open Sys2Proof.Machine

/-! ## The words (R76, R81) -/

theorem isWordOf_ldI (nnn : Imm12) : IsWordOf (hexWordNNN 0xA nnn) (.ldI nnn) := by
  intro p
  rw [hexWordNNN_eq]
  simp [decode]

/-- R81: a word `Fxcd` goes to the table of family 0xF, with `cd` as `nn`. -/
theorem decode_hexWord_familyF (p : Params) (x : Reg) (c d : Nat) (hc : c < 16) (hd : d < 16) :
    decode p (hexWord 0xF x c d) = decodeFamilyF (packXNN 0xF x (BitVec.ofNat 8 (0x10 * c + d))) := by
  rw [hexWord_eq_packXNN 0xF c d x hc hd]
  simp [decode]

theorem isWordOf_ldFVx (x : Reg) : IsWordOf (hexWord 0xF x 0x2 0x9) (.ldFVx x) := by
  intro p
  rw [decode_hexWord_familyF p x 0x2 0x9 (by decide) (by decide)]
  simp [decodeFamilyF]

/-! ## Each instruction as one write of I -/

/-- Every part but I is kept by its `setI` law of Laws/State; for I itself the frame claims nothing. -/
theorem setI_changesOnly (s : State) (v : Word) : ChangesOnly [] [.I] noCell s (s.setI v) := by
  constructor <;> simp

/-- R161: LD I answers the state with I set to `nnn`. -/
theorem exec_ldI (nnn : Imm12) (s : State) : exec (.ldI nnn) s = .next (s.setI (zextAddr nnn)) := rfl

/-- R163: LD F answers the state with I set to the glyph's address. -/
theorem exec_ldFVx (x : Reg) (s : State) : exec (.ldFVx x) s = .next (s.setI (glyphAddr (s.getV x))) := rfl

/-! ## The statement -/

/-- Settles O18: both next states are a `setI`, of an address that fits in 16 bits: `nnn` has 12 bits, and a byte
times 5 is at most 1275. -/
theorem indexLoads : Obligations.IndexLoads := by
  intro s nnn x
  refine ⟨isWordOf_ldI nnn, isWordOf_ldFVx x, ?ldI, ?ldFVx⟩
  case ldI => exact ⟨s.setI (zextAddr nnn), exec_ldI nnn s, zextAddr_toNat nnn, setI_changesOnly s _⟩
  case ldFVx =>
    exact ⟨s.setI (glyphAddr (s.getV x)), exec_ldFVx x s, glyphAddr_toNat (s.getV x), setI_changesOnly s _⟩

end Sys2Proof.Proofs
end

section
/-! PROOFS. The statement of 44_display.md about the cleared display: R181 and R185 (00E0). -/

namespace Sys2Proof.Proofs

open Sys2Proof.Machine

/-- Every part but the bitmap and redraw-pending is kept by its `setFb` law of Laws/State; for these two the frame
claims nothing. -/
theorem setFb_changesOnly (s : State) (fb : Bitmap) : ChangesOnly [] [.fb, .redraw] noCell s (s.setFb fb) := by
  constructor <;> simp

/-- R77: `00E0` is the word that `encode` gives CLS, and each of the three keys of family 0x0 recognizes it. -/
theorem isWordOf_cls : IsWordOf (hexWord 0 0 0xE 0x0) .cls := fun p => Laws.RoundTrip.cls p rfl

/-- R181, R185: CLS answers the state with the blank bitmap written to the display. -/
theorem exec_cls (s : State) : exec .cls s = .next (s.setFb Bitmap.blank) := rfl

/-- Settles O23: every cell of the blank bitmap is off, and a write of the display sets redraw-pending. -/
theorem clsClearsEveryCell : Obligations.ClsClearsEveryCell := fun s =>
  ⟨isWordOf_cls, s.setFb Bitmap.blank, exec_cls s, fun r c _ _ => Bitmap.cell_blank r c,
    State.setFb_redraw s Bitmap.blank, setFb_changesOnly s Bitmap.blank⟩

end Sys2Proof.Proofs
end

section
/-! PROOFS. The statements of 45_timers_input.md about the timer instructions: R203 (FX07), R204 (FX15) and R205
(FX18). -/

namespace Sys2Proof.Proofs

open Sys2Proof.Machine

/-! ## The words (R81) -/

theorem isWordOf_ldVxDt (x : Reg) : IsWordOf (hexWord 0xF x 0x0 0x7) (.ldVxDt x) := by
  intro p
  rw [decode_hexWord_familyF p x 0x0 0x7 (by decide) (by decide)]
  simp [decodeFamilyF]

theorem isWordOf_ldDtVx (x : Reg) : IsWordOf (hexWord 0xF x 0x1 0x5) (.ldDtVx x) := by
  intro p
  rw [decode_hexWord_familyF p x 0x1 0x5 (by decide) (by decide)]
  simp [decodeFamilyF]

theorem isWordOf_ldStVx (x : Reg) : IsWordOf (hexWord 0xF x 0x1 0x8) (.ldStVx x) := by
  intro p
  rw [decode_hexWord_familyF p x 0x1 0x8 (by decide) (by decide)]
  simp [decodeFamilyF]

/-! ## Each instruction as one write -/

/-- Every part but DT is kept by its `setDT` law of Laws/State; for DT itself the frame claims nothing. -/
theorem setDT_changesOnly (s : State) (v : Byte) : ChangesOnly [] [.DT] noCell s (s.setDT v) := by
  constructor <;> simp

/-- Every part but ST is kept by its `setST` law of Laws/State; for ST itself the frame claims nothing. -/
theorem setST_changesOnly (s : State) (v : Byte) : ChangesOnly [] [.ST] noCell s (s.setST v) := by
  constructor <;> simp

/-- R203: LD Vx, DT answers the state with V[x] set to the delay timer. -/
theorem exec_ldVxDt (x : Reg) (s : State) : exec (.ldVxDt x) s = .next (s.setV x s.DT) := rfl

/-- R204: LD DT, Vx answers the state with the delay timer set to V[x]. -/
theorem exec_ldDtVx (x : Reg) (s : State) : exec (.ldDtVx x) s = .next (s.setDT (s.getV x)) := rfl

/-- R205: LD ST, Vx answers the state with the sound timer set to V[x]. -/
theorem exec_ldStVx (x : Reg) (s : State) : exec (.ldStVx x) s = .next (s.setST (s.getV x)) := rfl

/-! ## The statements -/

/-- Settles O26: the value written is the delay timer itself. -/
theorem ldVxDtReadsTheDelayTimer : Obligations.LdVxDtReadsTheDelayTimer := fun s x =>
  ⟨isWordOf_ldVxDt x, next_of_exec_eq_setV (· = s.DT) (exec_ldVxDt x s) rfl⟩

/-- Settles O27: the next states are a `setDT` and a `setST` of V[x]. -/
theorem timerWrites : Obligations.TimerWrites := by
  intro s x
  refine ⟨isWordOf_ldDtVx x, isWordOf_ldStVx x, ?ldDt, ?ldSt⟩
  case ldDt =>
    exact ⟨s.setDT (s.getV x), exec_ldDtVx x s, State.setDT_DT s (s.getV x), setDT_changesOnly s (s.getV x)⟩
  case ldSt =>
    exact ⟨s.setST (s.getV x), exec_ldStVx x s, State.setST_ST s (s.getV x), setST_changesOnly s (s.getV x)⟩

end Sys2Proof.Proofs
end

section
/-! PROOFS. The statement of 70_reset_and_hazards.md about memory below the program: R254 (the font, and the zero cells
0x050 to 0x1FF). -/

namespace Sys2Proof.Proofs

open Sys2Proof.Machine

/-! ## The reset image (R31, R37) -/

theorem resetByte_of_lt_fontLen (p : Params) {a : Nat} (h : a < fontLen) : resetByte p a = p.font[a] := dif_pos h

theorem resetByte_of_fontLen_le (p : Params) {a : Nat} (h : fontLen ≤ a) : resetByte p a = 0 := dif_neg h.not_gt

/-! ## LOAD below the program (R252) -/

/-- LOAD does nothing on a machine with a latched fault, writes no memory when the bytes are too many, and otherwise
stores from `programBase` up. -/
theorem byteAt_opLoad_of_lt_programBase (b : List Byte) (s : State) {a : Nat} (h : a < programBase) :
    (opLoad b s).byteAt a = s.byteAt a := by
  unfold opLoad
  split
  case h_1 => rfl
  case h_2 =>
    split_ifs
    case pos => exact State.byteAt_raiseFatal s .loadTooLarge a
    case neg => exact State.byteAt_storeBytes_of_out programBase b s a (.inl h)

/-! ## The statement -/

/-- Settles O49: memory at reset reads as the reset image, and the cells 0x050 to 0x1FF lie above its font and below
the program. -/
theorem fontIsPresentFromReset : Obligations.FontIsPresentFromReset := by
  intro p b
  refine ⟨fun a h => resetByte_of_lt_fontLen p h, fun a hlo hhi => ?zero⟩
  case zero =>
    have hreset : (State.create p).byteAt a = 0 := resetByte_of_fontLen_le p hlo
    have hload : (opLoad b (State.create p)).byteAt a = (State.create p).byteAt a :=
      byteAt_opLoad_of_lt_programBase b (State.create p) (Nat.lt_succ_of_le hhi)
    exact ⟨hreset, hload.trans hreset⟩

end Sys2Proof.Proofs
end

section
/-! PROOFS. The statements of 30_encoding.md about decoding: every instruction's word decodes to it (R72, R76), the
patterns of R85 written digit by digit, family 0x0 under each key (R77), and what a decoded instruction can be (R82). -/

namespace Sys2Proof.Proofs

open Sys2Proof.Machine

/-! ## Decoding what was encoded -/

/-- The lemmas of Laws/PerInstr for one constructor each, put together. -/
theorem decode_encode (p : Params) (i : Instr) (h : i.wellFormed p = true) : decode p (encode i) = i := by
  cases i with
  | cls => exact Laws.RoundTrip.cls p h
  | ret => exact Laws.RoundTrip.ret p h
  | jp nnn => exact Laws.RoundTrip.jp nnn p h
  | call nnn => exact Laws.RoundTrip.call nnn p h
  | seImm x nn => exact Laws.RoundTrip.seImm x nn p h
  | sneImm x nn => exact Laws.RoundTrip.sneImm x nn p h
  | seReg x y => exact Laws.RoundTrip.seReg x y p h
  | ldImm x nn => exact Laws.RoundTrip.ldImm x nn p h
  | addImm x nn => exact Laws.RoundTrip.addImm x nn p h
  | ldReg x y => exact Laws.RoundTrip.ldReg x y p h
  | orReg x y => exact Laws.RoundTrip.orReg x y p h
  | andReg x y => exact Laws.RoundTrip.andReg x y p h
  | xorReg x y => exact Laws.RoundTrip.xorReg x y p h
  | addReg x y => exact Laws.RoundTrip.addReg x y p h
  | sub x y => exact Laws.RoundTrip.sub x y p h
  | shr x y => exact Laws.RoundTrip.shr x y p h
  | subn x y => exact Laws.RoundTrip.subn x y p h
  | shl x y => exact Laws.RoundTrip.shl x y p h
  | sneReg x y => exact Laws.RoundTrip.sneReg x y p h
  | ldI nnn => exact Laws.RoundTrip.ldI nnn p h
  | jpOff nnn => exact Laws.RoundTrip.jpOff nnn p h
  | rnd x nn => exact Laws.RoundTrip.rnd x nn p h
  | drw x y n => exact Laws.RoundTrip.drw x y n p h
  | skp x => exact Laws.RoundTrip.skp x p h
  | sknp x => exact Laws.RoundTrip.sknp x p h
  | ldVxDt x => exact Laws.RoundTrip.ldVxDt x p h
  | ldVxK x => exact Laws.RoundTrip.ldVxK x p h
  | ldDtVx x => exact Laws.RoundTrip.ldDtVx x p h
  | ldStVx x => exact Laws.RoundTrip.ldStVx x p h
  | addIVx x => exact Laws.RoundTrip.addIVx x p h
  | ldFVx x => exact Laws.RoundTrip.ldFVx x p h
  | ldBVx x => exact Laws.RoundTrip.ldBVx x p h
  | ldMemVx x => exact Laws.RoundTrip.ldMemVx x p h
  | ldVxMem x => exact Laws.RoundTrip.ldVxMem x p h
  | unrecognized w => exact Laws.RoundTrip.unrecognized w p h

/-- The first two bytes of a list are the word decoded, the higher one first (R54). -/
theorem decodeBytes_encodeBytes (p : Params) (i : Instr) (rest : List Byte) :
    decodeBytes p (encodeBytes i ++ rest) = .ok (decode p (encode i), rest) := by
  show Except.ok (decode p (joinBytes (highByte (encode i)) (lowByte (encode i))), rest) = _
  rw [joinBytes_split]

/-- Settles O36, from the round trip of each constructor; two bytes in memory order are the word itself. -/
theorem decodeOfEncode : Obligations.DecodeOfEncode := by
  intro p i h
  have hword : decode p (encode i) = i := decode_encode p i h
  exact ⟨hword, fun rest => by rw [decodeBytes_encodeBytes, hword]⟩

/-! ## Words written digit by digit (R85) -/

/-- A word that is the encoding of an instruction which every machine has is that instruction. -/
theorem isWordOf_of_eq_encode {w : Word} {i : Instr} (hw : w = encode i) (hi : ∀ p, i.wellFormed p = true) :
    IsWordOf w i := fun p => hw ▸ decode_encode p i (hi p)

theorem isWordOf_ret : IsWordOf (hexWord 0 0 0xE 0xE) .ret := isWordOf_of_eq_encode (by decide) fun _ => rfl

theorem isWordOf_call (nnn : Imm12) : IsWordOf (hexWordNNN 0x2 nnn) (.call nnn) :=
  isWordOf_of_eq_encode (hexWordNNN_eq 0x2 nnn) fun _ => rfl

theorem isWordOf_jpOff (nnn : Imm12) : IsWordOf (hexWordNNN 0xB nnn) (.jpOff nnn) :=
  isWordOf_of_eq_encode (hexWordNNN_eq 0xB nnn) fun _ => rfl

theorem isWordOf_seImm (x : Reg) (nn : Byte) : IsWordOf (hexWordNN 0x3 x nn) (.seImm x nn) :=
  isWordOf_of_eq_encode (hexWordNN_eq 0x3 x nn) fun _ => rfl

theorem isWordOf_sneImm (x : Reg) (nn : Byte) : IsWordOf (hexWordNN 0x4 x nn) (.sneImm x nn) :=
  isWordOf_of_eq_encode (hexWordNN_eq 0x4 x nn) fun _ => rfl

theorem isWordOf_rnd (x : Reg) (nn : Byte) : IsWordOf (hexWordNN 0xC x nn) (.rnd x nn) :=
  isWordOf_of_eq_encode (hexWordNN_eq 0xC x nn) fun _ => rfl

theorem isWordOf_seReg (x y : Reg) : IsWordOf (hexWord 0x5 x y 0x0) (.seReg x y) :=
  isWordOf_of_eq_encode (hexWord_eq 0x5 0x0 x y (by decide)) fun _ => rfl

theorem isWordOf_addReg (x y : Reg) : IsWordOf (hexWord 0x8 x y 0x4) (.addReg x y) :=
  isWordOf_of_eq_encode (hexWord_eq 0x8 0x4 x y (by decide)) fun _ => rfl

theorem isWordOf_sub (x y : Reg) : IsWordOf (hexWord 0x8 x y 0x5) (.sub x y) :=
  isWordOf_of_eq_encode (hexWord_eq 0x8 0x5 x y (by decide)) fun _ => rfl

theorem isWordOf_shr (x y : Reg) : IsWordOf (hexWord 0x8 x y 0x6) (.shr x y) :=
  isWordOf_of_eq_encode (hexWord_eq 0x8 0x6 x y (by decide)) fun _ => rfl

theorem isWordOf_subn (x y : Reg) : IsWordOf (hexWord 0x8 x y 0x7) (.subn x y) :=
  isWordOf_of_eq_encode (hexWord_eq 0x8 0x7 x y (by decide)) fun _ => rfl

theorem isWordOf_shl (x y : Reg) : IsWordOf (hexWord 0x8 x y 0xE) (.shl x y) :=
  isWordOf_of_eq_encode (hexWord_eq 0x8 0xE x y (by decide)) fun _ => rfl

theorem isWordOf_sneReg (x y : Reg) : IsWordOf (hexWord 0x9 x y 0x0) (.sneReg x y) :=
  isWordOf_of_eq_encode (hexWord_eq 0x9 0x0 x y (by decide)) fun _ => rfl

theorem isWordOf_drw (x y : Reg) (n : Fin 16) : IsWordOf (hexWord 0xD x y n) (.drw x y n) :=
  isWordOf_of_eq_encode (hexWord_eq 0xD n x y n.isLt) fun _ => rfl

theorem isWordOf_skp (x : Reg) : IsWordOf (hexWord 0xE x 0x9 0xE) (.skp x) :=
  isWordOf_of_eq_encode (hexWord_eq_packXNN 0xE 0x9 0xE x (by decide) (by decide)) fun _ => rfl

theorem isWordOf_sknp (x : Reg) : IsWordOf (hexWord 0xE x 0xA 0x1) (.sknp x) :=
  isWordOf_of_eq_encode (hexWord_eq_packXNN 0xE 0xA 0x1 x (by decide) (by decide)) fun _ => rfl

theorem isWordOf_ldVxK (x : Reg) : IsWordOf (hexWord 0xF x 0x0 0xA) (.ldVxK x) :=
  isWordOf_of_eq_encode (hexWord_eq_packXNN 0xF 0x0 0xA x (by decide) (by decide)) fun _ => rfl

theorem isWordOf_addIVx (x : Reg) : IsWordOf (hexWord 0xF x 0x1 0xE) (.addIVx x) :=
  isWordOf_of_eq_encode (hexWord_eq_packXNN 0xF 0x1 0xE x (by decide) (by decide)) fun _ => rfl

theorem isWordOf_ldBVx (x : Reg) : IsWordOf (hexWord 0xF x 0x3 0x3) (.ldBVx x) :=
  isWordOf_of_eq_encode (hexWord_eq_packXNN 0xF 0x3 0x3 x (by decide) (by decide)) fun _ => rfl

theorem isWordOf_ldMemVx (x : Reg) : IsWordOf (hexWord 0xF x 0x5 0x5) (.ldMemVx x) :=
  isWordOf_of_eq_encode (hexWord_eq_packXNN 0xF 0x5 0x5 x (by decide) (by decide)) fun _ => rfl

theorem isWordOf_ldVxMem (x : Reg) : IsWordOf (hexWord 0xF x 0x6 0x5) (.ldVxMem x) :=
  isWordOf_of_eq_encode (hexWord_eq_packXNN 0xF 0x6 0x5 x (by decide) (by decide)) fun _ => rfl

/-- 8XY1 is OR on the machines that have it (R79, D11). -/
theorem decode_hexWord_orReg (p : Params) (x y : Reg) :
    decode p (hexWord 0x8 x y 0x1) =
      if p.or8xy1 then .orReg x y else .unrecognized (hexWord 0x8 x y 0x1) := by
  rw [decode_hexWord_family8 p x y 0x1 (by decide), hexWord_eq 0x8 0x1 x y (by decide)]
  simp [decodeFamily8]

/-- Settles O32: one word per pattern, each the encoding of its row. -/
theorem everyPatternDecodes : Obligations.EveryPatternDecodes := by
  refine ⟨fun x y n nn nnn => ?patterns, fun p x y h => ?or⟩
  case patterns =>
    exact ⟨isWordOf_cls, isWordOf_ret, isWordOf_jp nnn, isWordOf_call nnn, isWordOf_seImm x nn, isWordOf_sneImm x nn,
      isWordOf_seReg x y, isWordOf_ldImm x nn, isWordOf_addImm x nn, isWordOf_ldReg x y, isWordOf_andReg x y,
      isWordOf_xorReg x y, isWordOf_addReg x y, isWordOf_sub x y, isWordOf_shr x y, isWordOf_subn x y,
      isWordOf_shl x y, isWordOf_sneReg x y, isWordOf_ldI nnn, isWordOf_jpOff nnn, isWordOf_rnd x nn,
      isWordOf_drw x y n, isWordOf_skp x, isWordOf_sknp x, isWordOf_ldVxDt x, isWordOf_ldVxK x, isWordOf_ldDtVx x,
      isWordOf_ldStVx x, isWordOf_addIVx x, isWordOf_ldFVx x, isWordOf_ldBVx x, isWordOf_ldMemVx x,
      isWordOf_ldVxMem x⟩
  case or => rw [decode_hexWord_orReg, if_pos h]

/-! ## Family 0x0 (R77) -/

/-- A word whose first digit is 0 goes to the table of family 0x0. -/
theorem decode_hexWord_family0 (p : Params) (x y n : Reg) :
    decode p (hexWord 0 x y n) = decodeFamily0 p (hexWord 0 x y n) := by
  have hf : (fieldF (hexWord 0 x y n)).toNat = 0 := (fields_hexWord 0 x y n).1
  simp [decode, hf]

/-- Words written digit by digit are equal when their digits are. -/
theorem hexWord_inj (f x y n x' y' n' : Fin 16) :
    hexWord f x y n = hexWord f x' y' n' ↔ x = x' ∧ y = y' ∧ n = n' := by
  constructor
  · intro h
    obtain ⟨-, hx, hy, hn⟩ := fields_hexWord f x y n
    obtain ⟨-, hx', hy', hn'⟩ := fields_hexWord f x' y' n'
    rw [h] at hx hy hn
    exact ⟨hx.symm.trans hx', hy.symm.trans hy', hn.symm.trans hn'⟩
  · rintro ⟨rfl, rfl, rfl⟩
    rfl

/-- Settles O34: `nn`, n or the whole word, compared with a constant, is its digits compared. -/
theorem familyZeroFollowsItsKey : Obligations.FamilyZeroFollowsItsKey := by
  rintro p x y n w rfl
  rw [decode_hexWord_family0]
  refine ⟨fun hk => ?lowByte, fun hk => ?lowNibble, fun hk => ?fullWord⟩
  case lowByte =>
    simp only [decodeFamily0, hk]
    exact if_congr (fieldNN_hexWord_iff 0 x y n 0xE 0x0) rfl
      (if_congr (fieldNN_hexWord_iff 0 x y n 0xE 0xE) rfl rfl)
  case lowNibble =>
    have hn : fieldN (hexWord 0 x y n) = n := (fields_hexWord 0 x y n).2.2.2
    simp only [decodeFamily0, hk]
    rw [hn]
  case fullWord =>
    simp only [decodeFamily0, hk]
    exact if_congr (hexWord_inj 0 x y n 0x0 0xE 0x0) rfl (if_congr (hexWord_inj 0 x y n 0x0 0xE 0xE) rfl rfl)

/-! ## What a decoded instruction can be (R82) -/

/-- `i` is an instruction of the machine, and if it is an unrecognized word, that word is `w`. -/
def FitsWord (p : Params) (w : Word) (i : Instr) : Prop :=
  i.wellFormed p = true ∧ ∀ v, i = .unrecognized v → v = w

theorem fitsWord_unrecognized {p : Params} {w : Word} (h : unrecognizedWord p w = true) :
    FitsWord p w (.unrecognized w) := ⟨h, fun _ e => (Instr.unrecognized.inj e).symm⟩

/-- R77: a word of family 0x0 is unrecognized when the key matches neither of the two. -/
theorem fitsWord_decodeFamily0 (p : Params) (w : Word) (hf : (fieldF w).toNat = 0x0) :
    FitsWord p w (decodeFamily0 p w) := by
  unfold fieldF at hf
  unfold decodeFamily0
  split <;> split_ifs
  case neg hk h0 hE => exact fitsWord_unrecognized (by simp_all [unrecognizedWord, fieldNN])
  case neg hk h0 hE => exact fitsWord_unrecognized (by simp_all [unrecognizedWord, ← low4_eq])
  case neg hk h0 hE => exact fitsWord_unrecognized (by simp_all [unrecognizedWord])
  all_goals exact ⟨rfl, nofun⟩

/-- R78: a word of family 0x5 or 0x9 is unrecognized when n must be 0 and is not. -/
theorem unrecognizedWord_of_not_nAllowed59 {p : Params} {w : Word}
    (hf : (fieldF w).toNat = 0x5 ∨ (fieldF w).toNat = 0x9) (h : ¬nAllowed59 p w = true) :
    unrecognizedWord p w = true := by
  unfold fieldF at hf
  have h0 : w.extractLsb' 0 4 = 0 ↔ fieldN w = 0 := low4_eq w 0
  rcases hf with hf | hf <;> simp_all [unrecognizedWord, nAllowed59]

/-- R79, R82: of family 0x8 the words with n = 8 to D or F are unrecognized, and with n = 1 on a machine without OR. -/
theorem unrecognizedWord_family8_iff (p : Params) (w : Word) (hf : (fieldF w).toNat = 0x8) :
    unrecognizedWord p w = true ↔ ((fieldN w).val = 0x1 ∧ p.or8xy1 = false) ∨
      (0x8 ≤ (fieldN w).val ∧ (fieldN w).val ≤ 0xD) ∨ (fieldN w).val = 0xF := by
  unfold fieldF at hf
  have hn : (w.extractLsb' 0 4).toNat = (fieldN w).val := rfl
  have h1 : w.extractLsb' 0 4 = 1 ↔ fieldN w = 1 := low4_eq w 1
  have h15 : w.extractLsb' 0 4 = 15 ↔ fieldN w = 15 := low4_eq w 15
  simp only [unrecognizedWord, hf, hn, Bool.or_eq_true, Bool.and_eq_true, Bool.not_eq_true', beq_iff_eq,
    decide_eq_true_eq, h1, h15, Fin.ext_iff, or_assoc]
  rfl

theorem fitsWord_decodeFamily8 (p : Params) (w : Word) (hf : (fieldF w).toNat = 0x8) :
    FitsWord p w (decodeFamily8 p w) := by
  unfold decodeFamily8
  split
  case h_2 hn =>
    split_ifs with ho
    · exact ⟨ho, nofun⟩
    · exact fitsWord_unrecognized ((unrecognizedWord_family8_iff p w hf).2 (.inl ⟨hn, eq_false_of_ne_true ho⟩))
  case h_10 =>
    have hlt := (fieldN w).isLt
    refine fitsWord_unrecognized ((unrecognizedWord_family8_iff p w hf).2 ?_)
    simp only [imp_false] at *
    omega
  all_goals exact ⟨rfl, nofun⟩

/-- R80: the words of family 0xE whose `nn` is not in its table are unrecognized. -/
theorem fitsWord_decodeFamilyE (p : Params) (w : Word) (hf : (fieldF w).toNat = 0xE) :
    FitsWord p w (decodeFamilyE w) := by
  unfold fieldF at hf
  have hnn : w.extractLsb' 0 8 = fieldNN w := rfl
  unfold decodeFamilyE
  split_ifs
  case neg => exact fitsWord_unrecognized (by simp_all [unrecognizedWord])
  all_goals exact ⟨rfl, nofun⟩

/-- R81: the words of family 0xF whose `nn` is not in its table are unrecognized. -/
theorem fitsWord_decodeFamilyF (p : Params) (w : Word) (hf : (fieldF w).toNat = 0xF) :
    FitsWord p w (decodeFamilyF w) := by
  unfold fieldF at hf
  have hnn : w.extractLsb' 0 8 = fieldNN w := rfl
  unfold decodeFamilyF
  split_ifs
  case neg => exact fitsWord_unrecognized (by simp_all [unrecognizedWord])
  all_goals exact ⟨rfl, nofun⟩

/-- Settles O37, family by family; the families without a table decode to an instruction every machine has. -/
theorem decodedInstructionIsWellFormed : Obligations.DecodedInstructionIsWellFormed := by
  intro p w
  show FitsWord p w (decode p w)
  unfold decode
  split
  case h_1 hf => exact fitsWord_decodeFamily0 p w hf
  case h_6 hf =>
    split_ifs with hn
    · exact ⟨rfl, nofun⟩
    · exact fitsWord_unrecognized (unrecognizedWord_of_not_nAllowed59 (.inl hf) hn)
  case h_9 hf => exact fitsWord_decodeFamily8 p w hf
  case h_10 hf =>
    split_ifs with hn
    · exact ⟨rfl, nofun⟩
    · exact fitsWord_unrecognized (unrecognizedWord_of_not_nAllowed59 (.inr hf) hn)
  case h_15 hf => exact fitsWord_decodeFamilyE p w hf
  case h_16 =>
    have hlt := (fieldF w).isLt
    have hf : (fieldF w).toNat = 0xF := by simp only [imp_false] at *; omega
    exact fitsWord_decodeFamilyF p w hf
  all_goals exact ⟨rfl, nofun⟩

/-- Settles O38: each word is computed. -/
theorem exampleWordsDecode : Obligations.ExampleWordsDecode := by
  unfold Obligations.ExampleWordsDecode
  decide

end Sys2Proof.Proofs
end

section
/-! PROOFS. What an instruction can do to the state, said once by cases, and the whole-machine rules that follow: every
instruction answers a next state (R83, R226), which ones are fatal (R220), who writes what (10_state.md), and the
invariant at reset and over every step (R36). -/

namespace Sys2Proof.Proofs

open Sys2Proof.Machine

/-! ## The cases of an instruction -/

/-- The instructions that access the data memory (R52, R160). -/
def AccessesData (i : Instr) : Prop :=
  (∃ x y n, i = .drw x y n) ∨ (∃ x, i = .ldBVx x) ∨ (∃ x, i = .ldMemVx x) ∨ (∃ x, i = .ldVxMem x)

/-- What an instruction can make of the state `s`. Most compute: they write only registers, pc, and the model's counter
of draws and tape. The rest are named, with what they write and the guard under which they write it. -/
inductive ExecEffect (s : State) : Instr → State → Prop
  | computes (i : Instr) (V : Vector Byte 16) (pc : Word) (draws : Nat) (out : List Output) :
      ExecEffect s i { s with V := V, pc := pc, draws := draws, out := out }
  | stackFault (nnn : Imm12) : ExecEffect s (.call nnn) (s.raiseFatal .stackOverflow)
  | dataFault (i : Instr) (hi : AccessesData i) : ExecEffect s i (s.raiseFatal .dataOutOfBounds)
  | call (nnn : Imm12) (h : s.sp < 16) : ExecEffect s (.call nnn) ((s.push s.pc).setPc (zextAddr nnn))
  | ret (h : s.sp ≠ 0) : ExecEffect s .ret ((s.setSp (s.sp - 1)).setPc (s.stackAt (s.sp - 1)))
  | cls : ExecEffect s .cls (s.setFb Bitmap.blank)
  | drw (x y : Reg) (n : Fin 16) (fb : Bitmap) (v : Byte) : ExecEffect s (.drw x y n) ((s.setFb fb).setVF v)
  | ldI (nnn : Imm12) : ExecEffect s (.ldI nnn) (s.setI (zextAddr nnn))
  | ldFVx (x : Reg) : ExecEffect s (.ldFVx x) (s.setI (glyphAddr (s.getV x)))
  | addIVx (x : Reg) (v : Byte) : ExecEffect s (.addIVx x) ((s.setI (indexSum s.I (s.getV x))).setVF v)
  | ldDtVx (x : Reg) : ExecEffect s (.ldDtVx x) (s.setDT (s.getV x))
  | ldStVx (x : Reg) : ExecEffect s (.ldStVx x) (s.setST (s.getV x))
  | ldVxK (x : Reg) : ExecEffect s (.ldVxK x) ((s.setPause x).setPc (s.pc - 2))
  | ldBVx (x : Reg) (m : Memory) (hm : s.memWf → Memory.wf (resetByte s.params) m = true) :
      ExecEffect s (.ldBVx x) { s with mem := m }
  | ldMemVx (x : Reg) (m : Memory) (hI : s.I.toNat + x.val ≤ 0xFFF)
      (hm : s.memWf → Memory.wf (resetByte s.params) m = true) :
      ExecEffect s (.ldMemVx x) { s with mem := m, I := transferredI s.params.quirk s.I x }
  | ldVxMem (x : Reg) (V : Vector Byte 16) (hI : s.I.toNat + x.val ≤ 0xFFF) :
      ExecEffect s (.ldVxMem x) { s with V := V, I := transferredI s.params.quirk s.I x }

theorem SameButMem.memWf_mem {s t : State} (h : SameButMem s t) (hwf : t.memWf) :
    Memory.wf (resetByte s.params) t.mem = true := by
  unfold SameButMem at h
  have hp : t.params = s.params := by rw [h]
  exact hp ▸ hwf

theorem execEffect_ldBVx {x : Reg} {s t : State} (h : exec (.ldBVx x) s = .next t) : ExecEffect s (.ldBVx x) t := by
  by_cases hI : s.I.toNat + 2 ≤ 0xFFF
  · rw [exec_ldBVx_of_inBounds s x hI] at h
    cases h
    have hsame := s.storeDigits_sameButMem s.dataBase (s.getV x)
    have hb : s.dataBase + 3 ≤ memSize := Nat.succ_le_succ hI
    rw [hsame]
    exact .ldBVx x _ fun hwf => SameButMem.memWf_mem hsame (s.storeDigits_memWf _ _ hb hwf)
  · rw [exec_ldBVx_of_outOfBounds s x (Nat.lt_of_not_le hI)] at h
    cases h
    exact .dataFault _ (.inr (.inl ⟨x, rfl⟩))

theorem execEffect_ldMemVx {x : Reg} {s t : State} (h : exec (.ldMemVx x) s = .next t) :
    ExecEffect s (.ldMemVx x) t := by
  by_cases hI : s.I.toNat + x.val ≤ 0xFFF
  · rw [exec_ldMemVx_of_inBounds s x hI] at h
    cases h
    have hsame := s.storeRegs_sameButMem s.dataBase (x.val + 1)
    have hb : s.dataBase + (x.val + 1) ≤ memSize := Nat.succ_le_succ hI
    rw [hsame]
    exact .ldMemVx x (s.storeRegs s.dataBase (x.val + 1)).mem hI fun hwf =>
      SameButMem.memWf_mem hsame (s.storeRegs_memWf _ _ hb hwf)
  · rw [exec_ldMemVx_of_outOfBounds s x (Nat.lt_of_not_le hI)] at h
    cases h
    exact .dataFault _ (.inr (.inr (.inl ⟨x, rfl⟩)))

theorem execEffect_ldVxMem {x : Reg} {s t : State} (h : exec (.ldVxMem x) s = .next t) :
    ExecEffect s (.ldVxMem x) t := by
  by_cases hI : s.I.toNat + x.val ≤ 0xFFF
  · rw [exec_ldVxMem_of_inBounds s x hI] at h
    cases h
    rw [s.loadRegs_sameButV s.dataBase (x.val + 1)]
    exact .ldVxMem x _ hI
  · rw [exec_ldVxMem_of_outOfBounds s x (Nat.lt_of_not_le hI)] at h
    cases h
    exact .dataFault _ (.inr (.inr (.inr ⟨x, rfl⟩)))

theorem execEffect_drw {x y : Reg} {n : Fin 16} {s t : State} (h : exec (.drw x y n) s = .next t) :
    ExecEffect s (.drw x y n) t := by
  by_cases hs : s.SpriteInMemory (s.getV y) n
  · rw [exec_drw_of_inMemory s x y n hs] at h
    cases h
    exact .drw x y n _ _
  · rw [exec_drw_of_outOfMemory s x y n hs] at h
    cases h
    exact .dataFault _ (.inl ⟨x, y, n, rfl⟩)

theorem keyQueried_eq (s : State) (k : Byte) : s.keyQueried k = { s with out := (s.keyQueried k).out } := by
  unfold State.keyQueried
  split <;> rfl

/-- A key query writes only the tape, and a conditional skip only pc. -/
theorem keyQueried_skipIf_eq (s : State) (k : Byte) (c : Bool) :
    (s.keyQueried k).skipIf c =
      { s with pc := if c then s.pc + 2 else s.pc, out := (s.keyQueried k).out } := by
  rw [State.skipIf_eq, State.keyQueried_pc]
  exact congrArg (State.setPc _) (keyQueried_eq s k)

/-- A shift writes only registers. -/
theorem quirkCopy_flagThenResult_eq (s : State) (x y : Reg) (c : Bool) (result : State → Byte) :
    (s.quirkCopy x y).flagThenResult c x result =
      { s with V := ((s.quirkCopy x y).flagThenResult c x result).V } := by
  unfold State.quirkCopy
  split <;> rfl

/-- Every next state of an instruction is one of the cases. -/
theorem execEffect_of_exec {i : Instr} {s t : State} (h : exec i s = .next t) : ExecEffect s i t := by
  cases i with
  | drw x y n => exact execEffect_drw h
  | ldBVx x => exact execEffect_ldBVx h
  | ldMemVx x => exact execEffect_ldMemVx h
  | ldVxMem x => exact execEffect_ldVxMem h
  | ret =>
    simp only [exec, execRet] at h
    split at h <;> cases h
    · exact .computes ..
    · exact .ret ‹_›
  | call nnn =>
    simp only [exec, execCall] at h
    split at h <;> cases h
    · exact .call nnn ‹_›
    · exact .stackFault nnn
  | cls => cases h; exact .cls
  | ldI nnn => cases h; exact .ldI nnn
  | ldFVx x => cases h; exact .ldFVx x
  | addIVx x => cases h; exact .addIVx x _
  | ldDtVx x => cases h; exact .ldDtVx x
  | ldStVx x => cases h; exact .ldStVx x
  | ldVxK x => cases h; exact .ldVxK x
  | seImm x nn => cases h; rw [State.skipIf_eq]; exact .computes ..
  | sneImm x nn => cases h; rw [State.skipIf_eq]; exact .computes ..
  | seReg x y => cases h; rw [State.skipIf_eq]; exact .computes ..
  | sneReg x y => cases h; rw [State.skipIf_eq]; exact .computes ..
  | skp x => cases h; rw [keyQueried_skipIf_eq]; exact .computes ..
  | sknp x => cases h; rw [keyQueried_skipIf_eq]; exact .computes ..
  | shr x y => cases h; rw [quirkCopy_flagThenResult_eq]; exact .computes ..
  | shl x y => cases h; rw [quirkCopy_flagThenResult_eq]; exact .computes ..
  | _ => cases h; exact .computes ..

/-! ## Totality and fatal conditions -/

theorem withData_answers (base len : Nat) (s : State) (k : State → State) :
    ∃ t, withData base len s k = .next t := by
  rcases withData_cases base len s k with ⟨-, h⟩ | ⟨-, h⟩ <;> exact ⟨_, h⟩

/-- Settles O52: RET and CALL answer on both sides of their test, a data access in and out of bounds, and every other
meaning is one next state. -/
theorem everyInstructionAnswersANextState : Obligations.EveryInstructionAnswersANextState := by
  intro i s
  cases i with
  | ret => simp only [exec, execRet]; split <;> exact ⟨_, rfl⟩
  | call nnn => simp only [exec, execCall]; split <;> exact ⟨_, rfl⟩
  | drw x y n => simp only [exec, execDrw]; exact withData_answers ..
  | ldBVx x => simp only [exec, execLdBVx]; exact withData_answers ..
  | ldMemVx x => simp only [exec, execLdMemVx]; exact withData_answers ..
  | ldVxMem x => simp only [exec, execLdVxMem]; exact withData_answers ..
  | _ => exact ⟨_, rfl⟩

/-- Settles O46: of the cases of an instruction only the two faults write the latch. -/
theorem onlyFiveInstructionsAreFatal : Obligations.OnlyFiveInstructionsAreFatal := by
  intro s t i h hne
  cases execEffect_of_exec h with
  | stackFault nnn => exact .inl ⟨rfl, nnn, rfl⟩
  | dataFault i hi => exact .inr ⟨rfl, hi⟩
  | _ => exact absurd rfl hne

/-! ## Who writes what -/

theorem exec_keeps_byteAt {i : Instr} {s t : State} (h : exec i s = .next t) (hB : ∀ x, i ≠ .ldBVx x)
    (hM : ∀ x, i ≠ .ldMemVx x) (a : Nat) : t.byteAt a = s.byteAt a := by
  cases execEffect_of_exec h with
  | ldBVx x => exact absurd rfl (hB x)
  | ldMemVx x => exact absurd rfl (hM x)
  | _ => rfl

theorem exec_keeps_I {i : Instr} {s t : State} (h : exec i s = .next t) (hI : ∀ nnn, i ≠ .ldI nnn)
    (hA : ∀ x, i ≠ .addIVx x) (hF : ∀ x, i ≠ .ldFVx x)
    (hT : s.params.quirk = false → (∀ x, i ≠ .ldMemVx x) ∧ ∀ x, i ≠ .ldVxMem x) : t.I = s.I := by
  have quirk_of_transfer : ((∃ x, i = .ldMemVx x) ∨ ∃ x, i = .ldVxMem x) → s.params.quirk = true := by
    intro hi
    by_contra hq
    obtain ⟨hM, hV⟩ := hT (eq_false_of_ne_true hq)
    rcases hi with ⟨x, e⟩ | ⟨x, e⟩
    · exact hM x e
    · exact hV x e
  cases execEffect_of_exec h with
  | ldI nnn => exact absurd rfl (hI nnn)
  | addIVx x => exact absurd rfl (hA x)
  | ldFVx x => exact absurd rfl (hF x)
  | ldMemVx x => exact if_pos (quirk_of_transfer (.inl ⟨x, rfl⟩))
  | ldVxMem x => exact if_pos (quirk_of_transfer (.inr ⟨x, rfl⟩))
  | _ => rfl

theorem exec_keeps_stack {i : Instr} {s t : State} (h : exec i s = .next t) (hC : ∀ nnn, i ≠ .call nnn) :
    t.stack = s.stack := by
  cases execEffect_of_exec h with
  | call nnn => exact absurd rfl (hC nnn)
  | _ => rfl

theorem exec_keeps_sp {i : Instr} {s t : State} (h : exec i s = .next t) (hC : ∀ nnn, i ≠ .call nnn)
    (hR : i ≠ .ret) : t.sp = s.sp := by
  cases execEffect_of_exec h with
  | call nnn => exact absurd rfl (hC nnn)
  | ret => exact absurd rfl hR
  | _ => rfl

theorem exec_keeps_DT {i : Instr} {s t : State} (h : exec i s = .next t) (hD : ∀ x, i ≠ .ldDtVx x) :
    t.DT = s.DT := by
  cases execEffect_of_exec h with
  | ldDtVx x => exact absurd rfl (hD x)
  | _ => rfl

theorem exec_keeps_ST {i : Instr} {s t : State} (h : exec i s = .next t) (hS : ∀ x, i ≠ .ldStVx x) :
    t.ST = s.ST := by
  cases execEffect_of_exec h with
  | ldStVx x => exact absurd rfl (hS x)
  | _ => rfl

theorem exec_keeps_wait {i : Instr} {s t : State} (h : exec i s = .next t) (hK : ∀ x, i ≠ .ldVxK x) :
    t.paused = s.paused ∧ t.target = s.target := by
  cases execEffect_of_exec h with
  | ldVxK x => exact absurd rfl (hK x)
  | _ => exact ⟨rfl, rfl⟩

theorem exec_keeps_display {i : Instr} {s t : State} (h : exec i s = .next t) (hC : i ≠ .cls)
    (hD : ∀ x y n, i ≠ .drw x y n) : t.fb = s.fb ∧ t.redraw = s.redraw := by
  cases execEffect_of_exec h with
  | cls => exact absurd rfl hC
  | drw x y n => exact absurd rfl (hD x y n)
  | _ => exact ⟨rfl, rfl⟩

/-- Settles O54, part by part of the state. -/
theorem onlyTheNamedInstructionsWrite : Obligations.OnlyTheNamedInstructionsWrite := fun _ _ _ h =>
  ⟨exec_keeps_byteAt h, exec_keeps_I h, fun hC => ⟨exec_keeps_stack h hC, exec_keeps_sp h hC⟩, exec_keeps_DT h,
    exec_keeps_ST h, exec_keeps_wait h, exec_keeps_display h⟩

/-! ## The invariant -/

/-- Settles O50: at reset memory lists nothing, and sp and I are 0. -/
theorem resetMeetsTheInvariant : Obligations.ResetMeetsTheInvariant := by
  have hcreate : ∀ p, (State.create p).Inv := fun _ => ⟨rfl, Nat.zero_le _, Nat.zero_le _⟩
  exact ⟨hcreate, hcreate Params.default⟩

/-- The invariant of a state is one of its memory, its parameters, sp and I. -/
theorem inv_congr {s t : State} (hs : s.Inv) (hmem : t.mem = s.mem) (hfill : resetByte t.params = resetByte s.params)
    (hsp : t.sp = s.sp) (hI : t.I = s.I) : t.Inv :=
  ⟨by rw [hmem, hfill]; exact hs.mem_wf, by rw [hsp]; exact hs.sp_le, by rw [hI]; exact hs.index_le⟩

/-- FX55 and FX65 move I at most one past the last cell (R165, R166). -/
theorem transferredI_le {q : Bool} {i : Word} {x : Reg} (h : i.toNat + x.val ≤ 0xFFF) :
    (transferredI q i x).toNat ≤ 0x1000 := by
  rw [transferredI_toNat q i x h]
  split <;> omega

theorem exec_keeps_inv {i : Instr} {s t : State} (hs : s.Inv) (h : exec i s = .next t) : t.Inv := by
  obtain ⟨hmem, hsp, hI⟩ := hs
  cases execEffect_of_exec h with
  | call nnn hlt => exact ⟨hmem, hlt, hI⟩
  | ret => exact ⟨hmem, (Nat.sub_le _ _).trans hsp, hI⟩
  | ldI nnn => exact ⟨hmem, hsp, (zextAddr_toNat nnn).trans_le nnn.isLt.le⟩
  | ldFVx x =>
    have hx := (s.getV x).isLt
    exact ⟨hmem, hsp, (glyphAddr_toNat (s.getV x)).trans_le (by omega)⟩
  | addIVx x =>
    exact ⟨hmem, hsp, (indexSum_toNat s.I (s.getV x)).trans_le (Nat.mod_lt _ (by decide)).le⟩
  | ldBVx x m hm => exact ⟨hm hmem, hsp, hI⟩
  | ldMemVx x m hx hm => exact ⟨hm hmem, hsp, transferredI_le hx⟩
  | ldVxMem x V hx => exact ⟨hmem, hsp, transferredI_le hx⟩
  | _ => exact ⟨hmem, hsp, hI⟩

theorem resumeCheck_keeps_inv {s : State} (hs : s.Inv) : s.resumeCheck.Inv := by
  unfold State.resumeCheck
  split
  · exact inv_congr hs rfl rfl rfl rfl
  · exact hs

/-- LOAD's bytes lie in memory, and it writes nothing else (R252). -/
theorem storeBytes_keeps_inv {s : State} {b : List Byte} (hs : s.Inv) (hb : b.length ≤ maxProgram) :
    (s.storeBytes programBase b).Inv := by
  have hsame := s.storeBytes_sameButMem programBase b s (.refl s)
  have hend : programBase + b.length ≤ memSize := Nat.add_le_of_le_sub' (by decide) hb
  have hwf := SameButMem.memWf_mem hsame (s.storeBytes_memWf programBase b hend hs.mem_wf)
  rw [hsame]
  exact ⟨hwf, hs.sp_le, hs.index_le⟩

/-- Settles O51: every instruction keeps the invariant, and of the rest of an operation only the bytes of LOAD write a
part of the state it speaks of. -/
theorem everyStepKeepsTheInvariant : Obligations.EveryStepKeepsTheInvariant := by
  intro s t hs h
  refine step_preserves State.Inv ?exec ?fatal ?advance ?resume ?inp ?quirk ?pop ?emit ?ack ?tick ?load hs h
  case exec => exact fun _ _ _ hs h => exec_keeps_inv hs h
  case resume => exact fun _ hs => resumeCheck_keeps_inv hs
  case load => exact fun _ _ hs hb => storeBytes_keeps_inv hs hb
  case fatal | inp | quirk | emit => exact fun _ _ hs => inv_congr hs rfl rfl rfl rfl
  case advance | pop | ack => exact fun _ hs => inv_congr hs rfl rfl rfl rfl
  case tick => exact fun _ _ _ hs => inv_congr hs rfl rfl rfl rfl

end Sys2Proof.Proofs
end

section
/-! PROOFS. What a step can do to the state, said once by cases, and what follows for fatal conditions (R222), the
parameters (R9), redraw-pending (R30) and the wait (R28). -/

namespace Sys2Proof.Proofs

open Sys2Proof.Machine

/-! ## The cases of a step -/

/-- What a step can make of the state `s`: each case says the operation where it matters. An operation that brings
inputs first holds them. -/
inductive StepEffect (s : State) : State → Prop
  | fatal (c : FatalCode) :
      StepEffect s { s with fault := some c, agenda := s.agenda.tail, inp := s.nextOp.inputsAfter s.inp }
  | runs (inp : Inputs) (i : Instr) (t : State) (h : exec i (s.popAgenda.setInp inp).advancePc = .next t)
      (ht : t.fault = none) : StepEffect s t
  | runsWith (inp : Inputs) (q : Bool) (i : Instr) (u : State)
      (h : exec i ((s.popAgenda.setInp inp).setQuirk q) = .next u) (hu : u.fault = none) :
      StepEffect s (u.setQuirk s.params.quirk)
  | waits (inp : Inputs) : StepEffect s (s.popAgenda.setInp inp)
  | resumes (inp : Inputs) (k : Reg) (hop : s.nextOp = .cycle inp) (hk : inp.last = some k) :
      StepEffect s (((s.popAgenda.setInp inp).setV s.target (keyByte k)).endPause.advancePc)
  | loads (b : List Byte) : StepEffect s (s.popAgenda.storeBytes programBase b)
  | ticks (dt st : Byte) : StepEffect s ((s.popAgenda.setDT dt).setST st)
  | acks (hop : s.nextOp = .redrawAck) : StepEffect s s.popAgenda.ackRedraw
  | answers (o : Output) : StepEffect s (s.popAgenda.emit o)

theorem stepEffect_fatal {s : State} {op : HostOp} (hop : s.nextOp = op) (c : FatalCode) :
    StepEffect s { s with fault := some c, agenda := s.agenda.tail, inp := op.inputsAfter s.inp } :=
  hop ▸ .fatal c

theorem stepEffect_of_opCycle {s t : State} {inp : Inputs} (hf : s.fault = none) (hop : s.nextOp = .cycle inp)
    (h : opCycle inp s.popAgenda = .next t) : StepEffect s t := by
  simp only [opCycle, State.popAgenda_fault, hf] at h
  cases hp : s.paused with
  | true =>
    rw [State.cycleHeld_of_paused (s := s.popAgenda.setInp inp) hf hp] at h
    cases h
    unfold State.resumeCheck
    split
    case h_1 k hk => exact .resumes inp k hop hk
    case h_2 => exact .waits inp
  | false =>
    rw [State.cycleHeld_of_running (s := s.popAgenda.setInp inp) hf hp] at h
    cases hw : (s.popAgenda.setInp inp).fetch16 with
    | none =>
      rw [State.pass_of_no_fetch hw] at h
      cases h
      exact stepEffect_fatal hop _
    | some w =>
      rw [State.pass_of_fetch hw] at h
      rcases commit_cases h with ⟨c, rfl⟩ | ⟨he, ht⟩
      · exact stepEffect_fatal hop c
      · exact .runs inp _ t he ht

theorem stepEffect_of_opExec {s t : State} {w : Word} {q : Bool} {inp : Inputs} (hf : s.fault = none)
    (hop : s.nextOp = .exec w q inp) (h : opExec w q inp s.popAgenda = .next t) : StepEffect s t := by
  simp only [opExec, State.popAgenda_fault, hf] at h
  rcases commit_cases h with ⟨c, rfl⟩ | ⟨he, ht⟩
  · exact stepEffect_fatal hop c
  · obtain ⟨u, hu⟩ := everyInstructionAnswersANextState (decode s.popAgenda.params w)
      ((s.popAgenda.setInp inp).setQuirk q)
    rw [hu] at he
    cases he
    exact .runsWith inp q _ u hu ht

/-- Every next state of a step is one of the cases. -/
theorem stepEffect_of_step {s t : State} (h : step s = .next t) : StepEffect s t := by
  obtain ⟨hs, h⟩ := step_next h
  have hf : s.nextOp.isQuery = false → s.fault = none := fun hq => hs.resolve_right (by rw [hq]; decide)
  cases hop : s.nextOp <;> rw [hop] at h hf
  case load b =>
    have hf := hf rfl
    cases h
    simp only [opLoad, State.popAgenda_fault, hf]
    split_ifs
    · exact stepEffect_fatal hop _
    · exact .loads b
  case cycle inp => exact stepEffect_of_opCycle (hf rfl) hop h
  case exec w q inp => exact stepEffect_of_opExec (hf rfl) hop h
  case tick =>
    have hf := hf rfl
    cases h
    simp only [opTick, State.popAgenda_fault, hf]
    split_ifs
    · exact .ticks s.DT s.ST
    · exact .ticks _ _
  case redrawAck =>
    have hf := hf rfl
    cases h
    simp only [opRedrawAck, State.popAgenda_fault, hf]
    exact .acks hop
  all_goals cases h; exact .answers _

/-! ## Fatal conditions, parameters, redraw-pending, the wait -/

theorem storeBytes_fields (base : Nat) (b : List Byte) (s : State) :
    (s.storeBytes base b).fault = s.fault ∧ (s.storeBytes base b).params = s.params ∧
      (s.storeBytes base b).redraw = s.redraw ∧ (s.storeBytes base b).paused = s.paused := by
  have h := s.storeBytes_sameButMem base b s (.refl s)
  rw [h]
  exact ⟨rfl, rfl, rfl, rfl⟩

/-- Settles O45: the first case of a step is what the statement says, and every other leaves the latch clear. -/
theorem fatalConditionsArePrecise : Obligations.FatalConditionsArePrecise := by
  intro s t c hf h hc
  have clear : t.fault = none →
      t = { s with fault := some c, agenda := s.agenda.tail, inp := s.nextOp.inputsAfter s.inp } :=
    fun ht => absurd (ht.symm.trans hc) nofun
  cases stepEffect_of_step h with
  | fatal c' => cases hc; rfl
  | runs inp i t _ ht => exact clear ht
  | runsWith inp q i u _ hu => exact clear hu
  | loads b => exact clear ((storeBytes_fields programBase b s.popAgenda).1.trans hf)
  | _ => exact clear hf

/-- Settles O53: no instruction writes the parameters, and EXEC puts the machine's own quirk flag back. -/
theorem parametersNeverChange : Obligations.ParametersNeverChange := by
  intro s t h
  cases stepEffect_of_step h with
  | runs inp i t he => exact (exec_keeps_host_side he).1
  | runsWith inp q i u he =>
    have hu : u.params = { s.params with quirk := q } := (exec_keeps_host_side he).1
    rw [State.setQuirk_params, hu]
  | loads b => exact (storeBytes_fields programBase b s.popAgenda).2.1
  | _ => rfl

/-- An instruction writes redraw-pending and the wait flag only to set them (R181, R206). -/
theorem exec_keeps_pending {i : Instr} {s t : State} (h : exec i s = .next t) :
    (s.redraw = true → t.redraw = true) ∧ (s.paused = true → t.paused = true) := by
  cases execEffect_of_exec h with
  | cls => exact ⟨fun _ => rfl, id⟩
  | drw x y n fb v => exact ⟨fun _ => rfl, id⟩
  | ldVxK x => exact ⟨id, fun _ => rfl⟩
  | _ => exact ⟨id, id⟩

/-- Settles O55: of the cases of a step one writes redraw-pending and one the wait flag, apart from instructions, which
only set them. -/
theorem onlyTheNamedOperationsClear : Obligations.OnlyTheNamedOperationsClear := by
  intro s t h
  have kept : (s.redraw = true → t.redraw = true) →
      (s.redraw = true → t.redraw = false → s.nextOp = .redrawAck) :=
    fun hk hr ht => absurd ((hk hr).symm.trans ht) nofun
  have waits : (s.paused = true → t.paused = true) →
      (s.paused = true → t.paused = false → ∃ inp k, s.nextOp = .cycle inp ∧ inp.last = some k) :=
    fun hk hp ht => absurd ((hk hp).symm.trans ht) nofun
  cases stepEffect_of_step h with
  | runs inp i t he => exact ⟨kept (exec_keeps_pending he).1, waits (exec_keeps_pending he).2⟩
  | runsWith inp q i u he => exact ⟨kept (exec_keeps_pending he).1, waits (exec_keeps_pending he).2⟩
  | resumes inp k hop hk => exact ⟨kept id, fun _ _ => ⟨inp, k, hop, hk⟩⟩
  | acks hop => exact ⟨fun _ _ => hop, waits id⟩
  | loads b =>
    obtain ⟨-, -, hr, hp⟩ := storeBytes_fields programBase b s.popAgenda
    exact ⟨kept hr.trans, waits hp.trans⟩
  | _ => exact ⟨kept id, waits id⟩

end Sys2Proof.Proofs
end

section
/-! PROOFS. The statements of 41_control_flow.md: CALL and RET (R113, R111), the conditional skips (R114 to R117) and
BNNN (R118). -/

namespace Sys2Proof.Proofs

open Sys2Proof.Machine

/-! ## The stack (R26) -/

/-- A push writes the entry at sp and no other. -/
theorem stackAt_push (s : State) (a : Word) {k : Nat} (hk : k < 16) :
    (s.push a).stackAt k = if k = s.sp then a else s.stackAt k := by
  simp [State.stackAt, hk, Vector.getElem_setIfInBounds, eq_comm]

theorem stackAt_congr {s t : State} (h : t.stack = s.stack) (k : Nat) : t.stackAt k = s.stackAt k := by
  rw [State.stackAt, State.stackAt, h]

/-! ## CALL and RET -/

theorem exec_call_of_lt (nnn : Imm12) {s : State} (h : s.sp < 16) :
    exec (.call nnn) s = .next ((s.push s.pc).setPc (zextAddr nnn)) := if_pos h

theorem exec_call_of_not_lt (nnn : Imm12) {s : State} (h : ¬s.sp < 16) :
    exec (.call nnn) s = .next (s.raiseFatal .stackOverflow) := if_neg h

theorem exec_ret_of_ne_zero {s : State} (h : s.sp ≠ 0) :
    exec .ret s = .next ((s.setSp (s.sp - 1)).setPc (s.stackAt (s.sp - 1))) := if_neg h

theorem exec_ret_of_zero {s : State} (h : s.sp = 0) :
    exec .ret s = .next ((s.emit (.diag .stackUnderflow)).setPc 0) := if_pos h

/-- Settles O2: with room the next state is a push and a jump, with 16 entries only the latch is written. -/
theorem callPushesPcOrOverflows : Obligations.CallPushesPcOrOverflows := by
  intro s nnn
  refine ⟨isWordOf_call nnn, fun h => ⟨_, exec_call_of_lt nnn h, zextAddr_toNat nnn, rfl, ?stack, ?frame⟩,
    fun h => ?full⟩
  case stack => exact fun k hk => stackAt_push s s.pc hk
  case frame => constructor <;> simp
  case full => exact exec_call_of_not_lt nnn (by omega)

/-- Settles O3: an entry is popped by sp and pc alone; on an empty stack only pc and the tape are written. -/
theorem retPopsOrUnderflows : Obligations.RetPopsOrUnderflows := by
  intro s
  refine ⟨isWordOf_ret, fun h _ => ⟨_, exec_ret_of_ne_zero h.ne', rfl, rfl, ?pops⟩,
    fun h => ⟨_, exec_ret_of_zero h, rfl, rfl, ?underflows⟩⟩
  case pops => constructor <;> simp
  case underflows => constructor <;> simp

/-! ## The conditional skips -/

theorem exec_seImm (x : Reg) (nn : Byte) (s : State) : exec (.seImm x nn) s = .next (s.skipIf (s.getV x == nn)) := rfl

theorem exec_sneImm (x : Reg) (nn : Byte) (s : State) : exec (.sneImm x nn) s = .next (s.skipIf (s.getV x != nn)) := rfl

theorem exec_seReg (x y : Reg) (s : State) : exec (.seReg x y) s = .next (s.skipIf (s.getV x == s.getV y)) := rfl

theorem exec_sneReg (x y : Reg) (s : State) : exec (.sneReg x y) s = .next (s.skipIf (s.getV x != s.getV y)) := rfl

/-- What the statements of this family share: an instruction that skips exactly when `c` holds writes pc alone. -/
theorem next_of_exec_eq_skipIf {i : Instr} {s : State} {c : Bool} {pc : Word} (hexec : exec i s = .next (s.skipIf c))
    (hpc : (if c then s.pc + 2 else s.pc) = pc) :
    ∃ t, exec i s = .next t ∧ t.pc = pc ∧ ChangesOnly [] [.pc] noCell s t := by
  rw [State.skipIf_eq, hpc] at hexec
  exact ⟨s.setPc pc, hexec, rfl, setPc_changesOnly s pc⟩

theorem next_of_skip_on_eq {i : Instr} {s : State} {a b : Byte} (hexec : exec i s = .next (s.skipIf (a == b))) :
    ∃ t, exec i s = .next t ∧ t.pc = (if a = b then s.pc + 2 else s.pc) ∧ ChangesOnly [] [.pc] noCell s t :=
  next_of_exec_eq_skipIf hexec (by simp)

theorem next_of_skip_on_ne {i : Instr} {s : State} {a b : Byte} (hexec : exec i s = .next (s.skipIf (a != b))) :
    ∃ t, exec i s = .next t ∧ t.pc = (if a = b then s.pc else s.pc + 2) ∧ ChangesOnly [] [.pc] noCell s t :=
  next_of_exec_eq_skipIf hexec (by simp)

/-- Settles O4: SE skips on equality of V[x] and the immediate, SNE on inequality. -/
theorem immediateSkips : Obligations.ImmediateSkips := fun s x nn =>
  ⟨isWordOf_seImm x nn, isWordOf_sneImm x nn, next_of_skip_on_eq (exec_seImm x nn s),
    next_of_skip_on_ne (exec_sneImm x nn s)⟩

/-- R78: is a word of family 0x5 or 0x9 its instruction, by its last digit. -/
theorem ite_nAllowed59_packXYN {α : Type} (p : Params) (f : BitVec 4) (x y : Reg) (n : Fin 16) (a b : α) :
    (if nAllowed59 p (packXYN f x y n) then a else b) = if p.strict59 = true ∧ n ≠ 0 then b else a := by
  cases hs : p.strict59 <;> simp [nAllowed59, hs]

theorem decode_hexWord_family5 (p : Params) (x y n : Fin 16) :
    decode p (hexWord 0x5 x y n) =
      if p.strict59 = true ∧ n ≠ 0 then .unrecognized (hexWord 0x5 x y n) else .seReg x y := by
  rw [hexWord_eq 0x5 n x y n.isLt, ← ite_nAllowed59_packXYN p (BitVec.ofNat 4 0x5) x y n]
  simp [decode]

theorem decode_hexWord_family9 (p : Params) (x y n : Fin 16) :
    decode p (hexWord 0x9 x y n) =
      if p.strict59 = true ∧ n ≠ 0 then .unrecognized (hexWord 0x9 x y n) else .sneReg x y := by
  rw [hexWord_eq 0x9 n x y n.isLt, ← ite_nAllowed59_packXYN p (BitVec.ofNat 4 0x9) x y n]
  simp [decode]

/-- Settles O5: the skips as for an immediate, and the words by whether the machine asks for n = 0. -/
theorem registerSkips : Obligations.RegisterSkips := fun s x y =>
  ⟨next_of_skip_on_eq (exec_seReg x y s), next_of_skip_on_ne (exec_sneReg x y s),
    fun p n => ⟨decode_hexWord_family5 p x y n, decode_hexWord_family9 p x y n⟩⟩

/-! ## BNNN -/

theorem exec_jpOff (nnn : Imm12) (s : State) : exec (.jpOff nnn) s =
    .next (s.setPc (zextAddr nnn + (s.getV (jpOffReg s.params.quirk nnn)).zeroExtend 16)) := rfl

/-- A 12-bit address plus a byte fits in 16 bits (R118). -/
theorem zextAddr_add_zeroExtend_toNat (nnn : Imm12) (b : Byte) :
    (zextAddr nnn + b.zeroExtend 16).toNat = nnn.toNat + b.toNat := by
  have hn := nnn.isLt
  have hb := b.isLt
  rw [BitVec.toNat_add, zextAddr_toNat, BitVec.zeroExtend, BitVec.toNat_setWidth]
  omega

/-- Settles O6: the target is the exact sum, of the register that the quirk flag selects. -/
theorem jpOffAddsRegister : Obligations.JpOffAddsRegister := by
  intro s nnn
  refine ⟨isWordOf_jpOff nnn, _, exec_jpOff nnn s, fun hq => ?legacy, fun x hq hx => ?quirk, setPc_changesOnly s _⟩
  case legacy => rw [hq]; exact zextAddr_add_zeroExtend_toNat nnn (s.getV 0)
  case quirk => rw [hq, jpOffReg_quirk nnn x hx]; exact zextAddr_add_zeroExtend_toNat nnn (s.getV x)

end Sys2Proof.Proofs
end

section
/-! PROOFS. The statements of 42_alu.md about OR, the flag-writing instructions and RND (R134, R137 to R142). -/

namespace Sys2Proof.Proofs

open Sys2Proof.Machine

/-! ## The frame of an instruction that writes registers, cells and I -/

/-- A next state that differs in memory, V and I only, and there only where the frame allows it. -/
theorem changesOnly_of_storage {regs : List Reg} {parts : List Part} {cells : Nat → Prop} {s t : State}
    (h : t = { s with mem := t.mem, V := t.V, I := t.I }) (hregs : ∀ r, r ∉ regs → t.getV r = s.getV r)
    (hcells : ∀ a, ¬cells a → t.byteAt a = s.byteAt a) (hI : Part.I ∉ parts → t.I = s.I) :
    ChangesOnly regs parts cells s t := by
  constructor
  case regs_kept => exact hregs
  case cells_kept => exact hcells
  case I_kept => exact hI
  all_goals intro _; rw [h]

/-- Two register writes in a row, each to a register the frame names. -/
theorem setV_setV_changesOnly {regs : List Reg} (s : State) {x y : Reg} (u v : Byte) (hx : x ∈ regs)
    (hy : y ∈ regs) :
    ChangesOnly regs [] noCell s ((s.setV x u).setV y v) := by
  refine changesOnly_of_storage rfl (fun r hr => ?_) (fun _ _ => rfl) fun _ => rfl
  rw [State.getV_setV, if_neg (ne_of_mem_of_not_mem hy hr).symm, State.getV_setV,
    if_neg (ne_of_mem_of_not_mem hx hr).symm]

/-! ## OR and ADD -/

theorem exec_orReg (x y : Reg) (s : State) :
    exec (.orReg x y) s = .next (s.setV x (s.getV x ||| s.getV y)) := rfl

/-- Settles O11: on the machines that have it, one register write of a value given bit by bit by the library. -/
theorem orIsGivenByItsParameter : Obligations.OrIsGivenByItsParameter :=
  ⟨decode_hexWord_orReg, fun s x y =>
    next_of_exec_eq_setV (fun v => ∀ k, v.getLsbD k = ((s.getV x).getLsbD k || (s.getV y).getLsbD k))
      (exec_orReg x y s) fun _ => BitVec.getLsbD_or⟩

theorem exec_addReg (x y : Reg) (s : State) : exec (.addReg x y) s =
    .next ((s.setV x (s.getV x + s.getV y)).setV flagReg (flagByte (carryFlag (s.getV x) (s.getV y)))) := rfl

/-- Settles O12: the sum is written first and the carry last, so that VF ends with the carry. -/
theorem addRegCarries : Obligations.AddRegCarries := by
  intro s x y
  refine ⟨isWordOf_addReg x y, _, exec_addReg x y s, ?carry, fun hx => ?sum,
    setV_setV_changesOnly s _ _ (by simp) (by simp)⟩
  case carry => simp [carryFlag]
  case sum =>
    rw [State.getV_setV, if_neg hx, State.getV_setV_self]
    exact BitVec.toNat_add (s.getV x) (s.getV y)

/-! ## The flag first, then a result: SUB, SUBN, SHR, SHL -/

theorem getV_flagThenResult (s : State) (c : Bool) (x r : Reg) (result : State → Byte) :
    (s.flagThenResult c x result).getV r =
      if r = x then result (s.setVF (flagByte c)) else if r = flagReg then flagByte c else s.getV r := by
  simp only [State.flagThenResult, State.setVF_eq, State.getV_setV]

theorem flagThenResult_changesOnly (s : State) (c : Bool) (x : Reg) (result : State → Byte) :
    ChangesOnly [x, 0xF] [] noCell s (s.flagThenResult c x result) :=
  setV_setV_changesOnly s _ _ (by simp) (by simp)

theorem exec_sub (x y : Reg) (s : State) : exec (.sub x y) s =
    .next (s.flagThenResult (greaterFlag (s.getV x) (s.getV y)) x fun t => t.getV x - t.getV y) := rfl

theorem exec_subn (x y : Reg) (s : State) : exec (.subn x y) s =
    .next (s.flagThenResult (greaterFlag (s.getV x) (s.getV y)) x fun t => t.getV y - t.getV x) := rfl

theorem byte_sub_toNat (a b : Byte) : (a - b).toNat = (a.toNat + 256 - b.toNat) % 256 := by
  have hb := b.isLt
  rw [BitVec.toNat_sub]
  omega

/-- The difference of two registers, read after the flag has been written (D2). -/
theorem getV_flagThenResult_sub (s : State) (c : Bool) (x a b : Reg) :
    ((s.flagThenResult c x fun t => t.getV a - t.getV b).getV x).toNat =
      (s.seenAfterFlag (if c then 1 else 0) a + 256 - s.seenAfterFlag (if c then 1 else 0) b) % 256 := by
  rw [getV_flagThenResult, if_pos rfl, byte_sub_toNat, State.getV_setVF_toNat, State.getV_setVF_toNat]

/-- The flag stays in VF unless the result is written there. -/
theorem getV_flagReg_flagThenResult (s : State) (c : Bool) {x : Reg} (result : State → Byte) (hx : x ≠ 0xF) :
    (s.flagThenResult c x result).getV 0xF = flagByte c := by
  rw [getV_flagThenResult, if_neg hx.symm, if_pos rfl]

theorem ite_greaterFlag (a b : Byte) : (if greaterFlag a b then 1 else 0) = if b.toNat < a.toNat then 1 else 0 := by
  simp [greaterFlag]

/-- What SUB and SUBN share: the flag of V[x] > V[y], then a difference of two registers in V[x]. -/
theorem next_of_exec_eq_sub {i : Instr} {s : State} {x y a b : Reg} (hexec : exec i s =
      .next (s.flagThenResult (greaterFlag (s.getV x) (s.getV y)) x fun t => t.getV a - t.getV b)) :
    ∃ t, exec i s = .next t ∧ ∀ f : Nat, f = (if (s.getV y).toNat < (s.getV x).toNat then 1 else 0) →
      (t.getV x).toNat = (s.seenAfterFlag f a + 256 - s.seenAfterFlag f b) % 256 ∧
      (x ≠ 0xF → (t.getV 0xF).toNat = f) ∧ ChangesOnly [x, 0xF] [] noCell s t := by
  refine ⟨_, hexec, fun f hf => ?_⟩
  rw [← ite_greaterFlag] at hf
  subst hf
  refine ⟨getV_flagThenResult_sub s _ x a b, fun hx => ?flag, flagThenResult_changesOnly s _ x _⟩
  case flag => rw [getV_flagReg_flagThenResult s _ _ hx, flagByte_toNat]

/-- Settles O13: the difference is V[x] - V[y]. -/
theorem subComparesThenSubtracts : Obligations.SubComparesThenSubtracts := fun s x y =>
  ⟨isWordOf_sub x y, next_of_exec_eq_sub (exec_sub x y s)⟩

/-- Settles O14: the difference is V[y] - V[x]. -/
theorem subnComparesThenSubtracts : Obligations.SubnComparesThenSubtracts := fun s x y =>
  ⟨isWordOf_subn x y, next_of_exec_eq_sub (exec_subn x y s)⟩

theorem exec_shr (x y : Reg) (s : State) : exec (.shr x y) s =
    .next ((s.quirkCopy x y).flagThenResult (lowBitFlag ((s.quirkCopy x y).getV x)) x fun t => t.getV x >>> 1) := rfl

theorem exec_shl (x y : Reg) (s : State) : exec (.shl x y) s =
    .next ((s.quirkCopy x y).flagThenResult (highBitFlag ((s.quirkCopy x y).getV x)) x fun t => t.getV x <<< 1) := rfl

/-- The byte a shift works on (R140, R141). -/
theorem getV_quirkCopy_toNat (s : State) (x y : Reg) : ((s.quirkCopy x y).getV x).toNat =
    if s.params.quirk then (s.getV y).toNat else (s.getV x).toNat := by
  rw [State.getV_quirkCopy]
  cases s.params.quirk <;> simp

/-- The quirk copy writes V[x] too, and nothing else. -/
theorem shift_changesOnly (s : State) (x y : Reg) (c : Bool) (result : State → Byte) :
    ChangesOnly [x, 0xF] [] noCell s ((s.quirkCopy x y).flagThenResult c x result) := by
  have hsame := quirkCopy_flagThenResult_eq s x y c result
  refine changesOnly_of_storage (by rw [hsame]) (fun r hr => ?regs) (fun a _ => by rw [hsame]; rfl)
    fun _ => by rw [hsame]
  case regs =>
    rw [List.mem_pair, not_or] at hr
    rw [getV_flagThenResult, if_neg hr.1, if_neg hr.2, State.getV_quirkCopy, if_neg fun h => hr.1 h.1]

/-- What a shift reads once the flag is written: the flag when x = F, and else its byte. -/
theorem getV_setVF_flagByte (s : State) (c : Bool) (x : Reg) :
    (s.setVF (flagByte c)).getV x = if x = 0xF then flagByte c else s.getV x := by
  rw [State.setVF_eq, State.getV_setV]

/-- Settles O15: when x = F the shift works on the flag just written, whose half is 0. -/
theorem shrShiftsRight : Obligations.ShrShiftsRight := by
  intro s x y
  refine ⟨isWordOf_shr x y, _, exec_shr x y s, fun b hb => ?_⟩
  rw [← getV_quirkCopy_toNat] at hb
  subst hb
  refine ⟨fun hx => ⟨?half, ?bit⟩, fun hx => ?flag, shift_changesOnly s x y _ _⟩
  case half =>
    rw [getV_flagThenResult, if_pos rfl, getV_setVF_flagByte, if_neg hx, BitVec.toNat_ushiftRight,
      Nat.shiftRight_eq_div_pow]
  case bit => rw [getV_flagReg_flagThenResult _ _ _ hx, lowBitFlag_toNat]
  case flag =>
    have hbit := lowBitFlag_toNat ((s.quirkCopy x y).getV x)
    rw [getV_flagThenResult, if_pos hx.symm, getV_setVF_flagByte, if_pos hx, BitVec.toNat_ushiftRight,
      Nat.shiftRight_eq_div_pow]
    omega

/-- Settles O16: when x = F the shift works on the flag just written, whose double fits in a byte. -/
theorem shlShiftsLeft : Obligations.ShlShiftsLeft := by
  intro s x y
  refine ⟨isWordOf_shl x y, _, exec_shl x y s, fun b hb => ?_⟩
  rw [← getV_quirkCopy_toNat] at hb
  subst hb
  refine ⟨fun hx => ⟨?double, ?bit⟩, fun hx => ?flag, shift_changesOnly s x y _ _⟩
  case double =>
    rw [getV_flagThenResult, if_pos rfl, getV_setVF_flagByte, if_neg hx, BitVec.toNat_shiftLeft, Nat.shiftLeft_eq]
  case bit => rw [getV_flagReg_flagThenResult _ _ _ hx, highBitFlag_toNat]
  case flag =>
    have hbit := highBitFlag_toNat ((s.quirkCopy x y).getV x)
    have hlt := ((s.quirkCopy x y).getV x).isLt
    rw [getV_flagThenResult, if_pos hx.symm, getV_setVF_flagByte, if_pos hx, BitVec.toNat_shiftLeft, Nat.shiftLeft_eq]
    omega

/-! ## RND -/

theorem exec_rnd (x : Reg) (nn : Byte) (s : State) :
    exec (.rnd x nn) s = .next (s.countDraw.setV x (s.nextRandom &&& nn)) := rfl

/-- Settles O17: the AND is given bit by bit by the library; nothing is said of the free byte itself. -/
theorem rndMasksAFreeByte : Obligations.RndMasksAFreeByte := by
  intro s x nn
  have hbit : ∀ k, ((s.countDraw.setV x (s.nextRandom &&& nn)).getV x).getLsbD k =
      ((Config.randomByte s.draws).getLsbD k && nn.getLsbD k) := fun k => by
    rw [State.getV_setV_self]
    exact BitVec.getLsbD_and
  refine ⟨isWordOf_rnd x nn, _, exec_rnd x nn s, hbit, fun k hk => ?masked, rfl, ?frame⟩
  case masked => rw [hbit, hk, Bool.and_false]
  case frame =>
    constructor
    case regs_kept =>
      intro r hr
      rw [State.getV_setV, if_neg (List.ne_of_not_mem_cons hr), State.getV_countDraw]
    all_goals simp

end Sys2Proof.Proofs
end

section
/-! PROOFS. The statements of 43_index_memory.md about FX1E, FX33, FX55 and FX65 (R162, R164 to R166). -/

namespace Sys2Proof.Proofs

open Sys2Proof.Machine

/-! ## FX1E -/

theorem exec_addIVx (x : Reg) (s : State) : exec (.addIVx x) s =
    .next ((s.setI (indexSum s.I (s.getV x))).setV flagReg (flagByte (indexOverflowFlag s.I (s.getV x)))) := rfl

/-- Settles O19: both values come from the exact sum of the old ones. -/
theorem addIndexTruncatesTo12Bits : Obligations.AddIndexTruncatesTo12Bits := by
  intro s x
  refine ⟨isWordOf_addIVx x, _, exec_addIVx x s, indexSum_toNat s.I (s.getV x), ?flag, ?frame⟩
  case flag => simp [indexOverflowFlag]
  case frame =>
    refine changesOnly_of_storage rfl (fun r hr => ?_) (fun _ _ => rfl) fun h => absurd (by simp) h
    rw [State.getV_setV, if_neg (List.ne_of_not_mem_cons hr), State.getV_setI]

/-! ## FX33 -/

theorem hundreds_toNat (v : Byte) : (hundreds v).toNat = v.toNat / 100 := by
  simp only [hundreds, BitVec.toNat_ofNat]
  omega

theorem tens_toNat (v : Byte) : (tens v).toNat = v.toNat / 10 % 10 := by
  simp only [tens, BitVec.toNat_ofNat]
  omega

theorem units_toNat (v : Byte) : (units v).toNat = v.toNat % 10 := by
  simp only [units, BitVec.toNat_ofNat]
  omega

theorem byteAt_storeDigits_of_out (s : State) (base : Nat) (v : Byte) {a : Nat} (ha : ¬cellsFrom base 3 a) :
    (s.storeDigits base v).byteAt a = s.byteAt a := by
  unfold cellsFrom at ha
  unfold State.storeDigits
  rw [State.byteAt_storeByte_of_ne _ _ _ _ (by omega), State.byteAt_storeByte_of_ne _ _ _ _ (by omega),
    State.byteAt_storeByte_of_ne _ _ _ _ (by omega)]

/-- In a canonical memory the three cells read back as the three digits. -/
theorem byteAt_storeDigits (s : State) (base : Nat) (v : Byte) (hb : base + 3 ≤ memSize) (h : s.memWf) :
    (s.storeDigits base v).byteAt base = hundreds v ∧ (s.storeDigits base v).byteAt (base + 1) = tens v ∧
      (s.storeDigits base v).byteAt (base + 2) = units v := by
  have h1 := s.storeByte_memWf base (hundreds v) (by omega) h
  have h2 := State.storeByte_memWf _ (base + 1) (tens v) (by omega) h1
  unfold State.storeDigits
  simp only [State.byteAt_storeByte _ _ _ _ h2, State.byteAt_storeByte _ _ _ _ h1, State.byteAt_storeByte _ _ _ _ h]
  simp

theorem storage_of_sameButMem {s t : State} (h : SameButMem s t) : t = { s with mem := t.mem, V := t.V, I := t.I } := by
  unfold SameButMem at h
  rw [h]

/-- Settles O20: three stores of the digits, or the latch alone. -/
theorem bcdStoresThreeDigits : Obligations.BcdStoresThreeDigits := by
  intro s x
  refine ⟨isWordOf_ldBVx x, fun hI => ⟨_, exec_ldBVx_of_inBounds s x hI, ?frame, fun hwf => ?digits⟩,
    exec_ldBVx_of_outOfBounds s x⟩
  case frame =>
    exact changesOnly_of_storage (storage_of_sameButMem (s.storeDigits_sameButMem _ _)) (fun _ _ => rfl)
      (fun a ha => byteAt_storeDigits_of_out s s.I.toNat (s.getV x) ha) fun _ => rfl
  case digits =>
    obtain ⟨h1, h2, h3⟩ := byteAt_storeDigits s s.I.toNat (s.getV x) (Nat.succ_le_succ hI) hwf
    exact ⟨(congrArg BitVec.toNat h1).trans (hundreds_toNat _), (congrArg BitVec.toNat h2).trans (tens_toNat _),
      (congrArg BitVec.toNat h3).trans (units_toNat _)⟩

/-! ## FX55 and FX65 -/

/-- Settles O21: the list of stores (Laws/Ops), then I; or the latch alone. -/
theorem storeRegistersToMemory : Obligations.StoreRegistersToMemory := by
  intro s x
  refine ⟨isWordOf_ldMemVx x, fun hI => ⟨_, exec_ldMemVx_of_inBounds s x hI, transferredI_toNat _ _ x hI, ?frame,
    fun hwf r hr => ?stored⟩, exec_ldMemVx_of_outOfBounds s x⟩
  case frame =>
    have hsame : s.storeRegs s.dataBase (x.val + 1) = _ := s.storeRegs_sameButMem s.dataBase (x.val + 1)
    refine changesOnly_of_storage (by rw [hsame]; rfl) (fun r _ => by rw [hsame]; rfl) (fun a ha => ?_)
      fun h => absurd (by simp) h
    exact State.byteAt_storeRegs_of_out _ _ s a (by unfold cellsFrom at ha; simp only [State.dataBase]; omega)
  case stored =>
    have hlt : r.val < x.val + 1 := Nat.lt_succ_of_le hr
    have hend : s.dataBase + (x.val + 1) ≤ memSize := Nat.succ_le_succ hI
    exact (State.byteAt_storeRegs _ _ s hend hwf r.val hlt).trans (s.regAt_eq r)

/-- Settles O22: the list of loads (Laws/Ops), then I; or the latch alone. -/
theorem loadRegistersFromMemory : Obligations.LoadRegistersFromMemory := by
  intro s x
  refine ⟨isWordOf_ldVxMem x, fun hI => ⟨_, exec_ldVxMem_of_inBounds s x hI, transferredI_toNat _ _ x hI,
    fun r hr => ?loaded, ?frame⟩, exec_ldVxMem_of_outOfBounds s x⟩
  case loaded => rw [State.getV_setI, State.getV_loadRegs, if_pos (Nat.lt_succ_of_le hr), State.dataBase]
  case frame =>
    have hsame : s.loadRegs s.dataBase (x.val + 1) = _ := s.loadRegs_sameButV s.dataBase (x.val + 1)
    refine changesOnly_of_storage (by rw [hsame]; rfl) (fun r hr => ?_) (fun a _ => by rw [hsame]; rfl)
      fun h => absurd (by simp) h
    have hgt : ¬r.val < x.val + 1 := fun h => hr (by simpa using Nat.le_of_lt_succ h)
    rw [State.getV_setI, State.getV_loadRegs, if_neg hgt]

end Sys2Proof.Proofs
end

section
/-! PROOFS. The statements of 44_display.md about DXYN (R182, R183, R186, R188) and of 45_timers_input.md about the keys
(R200 to R202, R206). -/

namespace Sys2Proof.Proofs

open Sys2Proof.Machine

/-! ## DXYN -/

/-- A draw writes the display and VF. -/
theorem setFb_setVF_changesOnly (s : State) (fb : Bitmap) (v : Byte) :
    ChangesOnly [0xF] [.fb, .redraw] noCell s ((s.setFb fb).setVF v) := by
  constructor
  case regs_kept =>
    intro r hr
    rw [State.setVF_eq, State.getV_setV, if_neg (List.ne_of_not_mem_cons hr), State.getV_setFb]
  all_goals simp

/-- Settles O24: cells and collision are the blit's, in the statement's own terms (Laws/Exec). -/
theorem drwTurnsOverTheSpritesCells : Obligations.DrwTurnsOverTheSpritesCells := by
  intro s x y n
  refine ⟨isWordOf_drw x y n, fun h => ⟨_, exec_drw_of_inMemory s x y n h, ?cells, fun hc => ?lit, fun hc => ?off,
    rfl, setFb_setVF_changesOnly s _ _⟩, exec_drw_of_outOfMemory s x y n⟩
  case cells => exact fun r c hr hc => s.blit_cell_ne_iff (s.getV x) (s.getV y) n r c hr hc
  case lit =>
    rw [State.setVF_eq, State.getV_setV_self, (s.blit_collision_iff (s.getV x) (s.getV y) n).2 hc]
    rfl
  case off =>
    rw [State.setVF_eq, State.getV_setV_self,
      eq_false_of_ne_true (mt (s.blit_collision_iff (s.getV x) (s.getV y) n).1 hc)]
    rfl

/-- The sprite is the same in states with the same memory and I. -/
theorem spriteSets_congr {s t : State} (hbyte : ∀ a, t.byteAt a = s.byteAt a) (hI : t.I = s.I) (vx vy : Byte)
    (n r c : Nat) : t.SpriteSets vx vy n r c ↔ s.SpriteSets vx vy n r c := by
  unfold State.SpriteSets
  rw [hbyte, hI]

theorem spriteInMemory_congr {s t : State} (hI : t.I = s.I) (vy : Byte) (n : Nat) :
    t.SpriteInMemory vy n ↔ s.SpriteInMemory vy n := by
  unfold State.SpriteInMemory
  rw [hI]

/-- Settles O25: a draw that keeps x, y, I and memory is followed by a draw of the same sprite, and a cell turned over
twice is as it was. -/
theorem drawingTwiceRestoresTheBitmap : Obligations.DrawingTwiceRestoresTheBitmap := by
  intro s x y n hx hy hs
  obtain ⟨t, ht, htcell, -, -, -, htframe⟩ := (drwTurnsOverTheSpritesCells s x y n).2.1 hs
  have hvx : t.getV x = s.getV x := htframe.regs_kept x (by simpa using hx)
  have hvy : t.getV y = s.getV y := htframe.regs_kept y (by simpa using hy)
  have hI : t.I = s.I := htframe.I_kept (by decide)
  have hsets := spriteSets_congr (fun a => htframe.cells_kept a id) hI (s.getV x) (s.getV y) n
  have hts : t.SpriteInMemory (t.getV y) n := by rw [hvy]; exact (spriteInMemory_congr hI _ n).2 hs
  obtain ⟨u, hu, hucell, hulit, huoff, -, -⟩ := (drwTurnsOverTheSpritesCells t x y n).2.1 hts
  simp only [hvx, hvy, hsets] at hucell hulit huoff
  refine ⟨t, u, ht, hu, Bitmap.ext_cell _ _ fun r c hr hc => ?restored, hulit, huoff, ?wasOff⟩
  case restored =>
    have hchange : u.fb.cell r c ≠ t.fb.cell r c ↔ t.fb.cell r c ≠ s.fb.cell r c :=
      (hucell r c hr hc).trans (htcell r c hr hc).symm
    cases hcu : u.fb.cell r c <;> cases hct : t.fb.cell r c <;> cases hcs : s.fb.cell r c <;> simp_all
  case wasOff =>
    rintro ⟨r, c, hset, hoff⟩
    have hturned : t.fb.cell r c ≠ s.fb.cell r c := (htcell r c hset.1.2.2 hset.2.1.2.2).2 hset
    rw [hoff] at hturned
    exact hulit ⟨r, c, hset, eq_true_of_ne_false hturned⟩

/-! ## Key queries -/

theorem exec_skp (x : Reg) (s : State) :
    exec (.skp x) s = .next ((s.keyQueried (s.getV x)).skipIf (s.keyPressed (s.getV x))) := rfl

theorem exec_sknp (x : Reg) (s : State) :
    exec (.sknp x) s = .next ((s.keyQueried (s.getV x)).skipIf (!s.keyPressed (s.getV x))) := rfl

theorem keyQueried_of_lt (s : State) {k : Byte} (h : k.toNat < 16) : s.keyQueried k = s :=
  if_pos (decide_eq_true h)

theorem keyQueried_of_ge (s : State) {k : Byte} (h : 16 ≤ k.toNat) :
    s.keyQueried k = s.emit (.diag .keyOutOfRange) := if_neg (by simp [keyInRange]; omega)

theorem keyPressed_of_eq (s : State) {b : Byte} {k : Reg} (h : b.toNat = k.val) : s.keyPressed b = s.inp.keys[k] := by
  have hlt : b.toNat < 16 := h ▸ k.isLt
  simp [State.keyPressed, h]

theorem keyPressed_of_ge (s : State) {b : Byte} (h : 16 ≤ b.toNat) : s.keyPressed b = false := dif_neg (by omega)

theorem emit_changesOnly (s : State) (o : Output) : ChangesOnly [] [.out] noCell s (s.emit o) := by
  constructor <;> simp

theorem emit_setPc_changesOnly (s : State) (o : Output) (a : Word) :
    ChangesOnly [] [.pc, .out] noCell s ((s.emit o).setPc a) := by
  constructor <;> simp

/-- Settles O28: with a key code the query tells nothing and the rest is a skip; with 16 or more the key counts as not
pressed. -/
theorem keySkips : Obligations.KeySkips := by
  intro s x
  refine ⟨isWordOf_skp x, isWordOf_sknp x, fun k hk => ?code, fun hk => ?noCode⟩
  case code =>
    have hskp := exec_skp x s
    have hsknp := exec_sknp x s
    rw [keyQueried_of_lt s (hk ▸ k.isLt), keyPressed_of_eq s hk] at hskp hsknp
    exact ⟨next_of_exec_eq_skipIf hskp rfl, next_of_exec_eq_skipIf hsknp (by cases s.inp.keys[k] <;> rfl)⟩
  case noCode =>
    have hskp := exec_skp x s
    have hsknp := exec_sknp x s
    rw [keyQueried_of_ge s hk, keyPressed_of_ge s hk] at hskp hsknp
    exact ⟨⟨_, hskp, rfl, emit_changesOnly s _⟩, ⟨_, hsknp, rfl, rfl, emit_setPc_changesOnly s _ _⟩⟩

/-! ## Wait for key -/

theorem exec_ldVxK (x : Reg) (s : State) : exec (.ldVxK x) s = .next ((s.setPause x).setPc (s.pc - 2)) := rfl

/-- Settles O29: the wait is entered, and pc goes back by the 2 that the fetch added. -/
theorem waitForKeyPauses : Obligations.WaitForKeyPauses := by
  intro s x
  refine ⟨isWordOf_ldVxK x, _, exec_ldVxK x s, rfl, rfl, ?rewinds, ?frame⟩
  case rewinds =>
    show (s.pc - 2).toNat = _
    rw [BitVec.toNat_sub, show (2 : Word).toNat = 2 from rfl]
    omega
  case frame => constructor <;> simp

end Sys2Proof.Proofs
end

section
/-! PROOFS. The statements of 40_engine.md about the operations of the host (R90 to R102, R187, R207, R208, R222), of
20_memory.md about memory and fetch (R51, R54, R57), and of 70_reset_and_hazards.md about reset and LOAD (R250,
R252). -/

namespace Sys2Proof.Proofs

open Sys2Proof.Machine

/-! ## CYCLE -/

/-- An unpaused CYCLE with a whole word at pc executes what it decodes to, past the word (R94 to R97). -/
theorem cycleHeld_of_word {s : State} (hf : s.fault = none) (hp : s.paused = false) (hpc : s.pc.toNat ≤ 0xFFE) :
    s.cycleHeld = commit s (exec (decode s.params (s.wordAt s.pc.toNat)) (s.setPc (s.pc + 2))) := by
  rw [State.cycleHeld_of_running hf hp, State.pass_of_fetch (State.fetch16_of_le hpc), State.advancePc_eq]

/-- The same, where the instruction answers a state that has not failed. -/
theorem cycleHeld_of_exec {s t : State} (hf : s.fault = none) (hp : s.paused = false) (hpc : s.pc.toNat ≤ 0xFFE)
    (ht : exec (decode s.params (s.wordAt s.pc.toNat)) (s.setPc (s.pc + 2)) = .next t) (htf : t.fault = none) :
    s.cycleHeld = .next t := by
  rw [cycleHeld_of_word hf hp hpc, ht, commit_of_no_fault s t htf]

theorem cycleHeld_of_fatal_exec {s t : State} {c : FatalCode} (hf : s.fault = none) (hp : s.paused = false)
    (hpc : s.pc.toNat ≤ 0xFFE) (ht : exec (decode s.params (s.wordAt s.pc.toNat)) (s.setPc (s.pc + 2)) = .next t)
    (htf : t.fault = some c) : s.cycleHeld = .next (s.raiseFatal c) := by
  rw [cycleHeld_of_word hf hp hpc, ht, commit_of_fault s t c htf]

/-- Settles O39: with an empty agenda on the state itself, from the agenda on the state with the inputs held. -/
theorem stepRunsTheDecodedInstruction : Obligations.StepRunsTheDecodedInstruction := by
  rintro s t i hf hp hpc rfl
  refine ⟨fun ha ht => ?default, fun inp rest ha ht => ?fromAgenda⟩
  case default =>
    rw [step_of_nil hf ha]
    exact ⟨cycleHeld_of_exec hf hp hpc ht, fun _ => cycleHeld_of_fatal_exec hf hp hpc ht⟩
  case fromAgenda =>
    rw [step_of_callsCycle hf (.inr ha)]
    exact ⟨cycleHeld_of_exec (s := { s with inp := inp, agenda := rest }) hf hp hpc ht,
      fun _ => cycleHeld_of_fatal_exec (s := { s with inp := inp, agenda := rest }) hf hp hpc ht⟩

/-- Settles O7: the meaning is the identity, so the CYCLE is its advance of pc. -/
theorem unrecognizedIsNoOp : Obligations.UnrecognizedIsNoOp := by
  refine ⟨fun s w => exec_unrecognized w s, fun s w inp rest hf hp hcall hpc hw hd => ?cycle⟩
  case cycle =>
    subst hw
    rw [step_of_callsCycle hf hcall]
    exact cycleHeld_of_exec (s := { s with inp := inp, agenda := rest }) hf hp hpc
      ((congrArg (exec · _) hd).trans (exec_unrecognized _ _)) hf

/-- Settles O40: above 0xFFE there is no word to fetch. -/
theorem fetchOutOfBoundsIsFatal : Obligations.FetchOutOfBoundsIsFatal := by
  intro s inp rest hf hp hcall hpc
  rw [step_of_callsCycle hf hcall]
  exact (State.cycleHeld_of_running (s := { s with inp := inp, agenda := rest }) hf hp).trans
    (State.pass_of_no_fetch (State.fetch16_of_gt hpc))

theorem resumeCheck_of_none {s : State} (h : s.inp.last = none) : s.resumeCheck = s := by
  simp only [State.resumeCheck, h]

theorem resumeCheck_of_some {s : State} {k : Reg} (h : s.inp.last = some k) :
    s.resumeCheck = (s.setV s.target (keyByte k)).endPause.advancePc := by
  simp only [State.resumeCheck, h]

/-- Settles O30: a paused CYCLE is its check for a reported key. -/
theorem pausedCycleOnlyResumes : Obligations.PausedCycleOnlyResumes := by
  intro s inp rest hf hp hcall
  rw [step_of_callsCycle hf hcall, State.cycleHeld_of_paused (s := { s with inp := inp, agenda := rest }) hf hp]
  refine ⟨fun hk => by rw [resumeCheck_of_none hk],
    fun k hk => ⟨_, by rw [resumeCheck_of_some hk], ?key, rfl, rfl, ?frame⟩⟩
  case key =>
    rw [State.advancePc_eq, State.getV_setPc, State.getV_endPause, State.getV_setV_self, keyByte_toNat]
  case frame =>
    constructor
    case regs_kept =>
      intro r hr
      rw [State.advancePc_eq, State.getV_setPc, State.getV_endPause, State.getV_setV,
        if_neg (List.ne_of_not_mem_cons hr)]
    all_goals simp

/-- A jump to the address it stands at, executed past its word, restores pc (R112). -/
theorem exec_jp_to_pc {s : State} (p : Params) (hpc : s.pc.toNat ≤ 0xFFE) :
    exec (decode p (BitVec.ofNat 16 (0x1000 + s.pc.toNat))) (s.setPc (s.pc + 2)) = .next s := by
  have hnnn : (BitVec.ofNat 12 s.pc.toNat).toNat = s.pc.toNat := Nat.mod_eq_of_lt (by omega)
  have hword : BitVec.ofNat 16 (0x1000 + s.pc.toNat) = hexWordNNN 0x1 (BitVec.ofNat 12 s.pc.toNat) := by
    rw [hexWordNNN, hnnn]
  have htarget : zextAddr (BitVec.ofNat 12 s.pc.toNat) = s.pc :=
    BitVec.eq_of_toNat_eq ((zextAddr_toNat _).trans hnnn)
  rw [hword, isWordOf_jp, exec_jp, htarget]
  rfl

/-- Settles O47: the CYCLE's advance of pc is undone by the jump. -/
theorem doneStateStays : Obligations.DoneStateStays := by
  rintro s ⟨hf, hp, hpc, hw⟩ ha
  rw [step_of_nil hf ha]
  exact cycleHeld_of_exec hf hp hpc (by rw [hw]; exact exec_jp_to_pc s.params hpc) hf

/-! ## CALL and RET over two steps -/

theorem decode_ret_word (p : Params) : decode p 0x00EE = .ret := Laws.RoundTrip.ret p rfl

/-- Settles O59: two default CYCLEs, of a push and of the pop of what was pushed. -/
theorem callThenRetComesBack : Obligations.CallThenRetComesBack := by
  rintro s nnn ⟨hf, hp, ha⟩ hsp hpc hnnn hcall hret
  let t := ((s.setPc (s.pc + 2)).push (s.pc + 2)).setPc (zextAddr nnn)
  have htpc : t.pc.toNat = nnn.toNat := zextAddr_toNat nnn
  have ht : step s = .next t := by
    rw [step_of_nil hf ha]
    refine cycleHeld_of_exec hf hp hpc ?_ hf
    rw [hcall, isWordOf_call]
    exact exec_call_of_lt nnn hsp
  have hentry : ∀ k, k < 16 → t.stackAt k = if k = s.sp then s.pc + 2 else s.stackAt k := fun k hk =>
    stackAt_push (s.setPc (s.pc + 2)) (s.pc + 2) hk
  let u := (t.setSp s.sp).setPc (t.stackAt s.sp)
  have hu : step t = .next u := by
    rw [step_of_nil (s := t) hf ha]
    refine cycleHeld_of_exec hf hp (htpc.trans_le hnnn) ?_ hf
    have hword : t.wordAt t.pc.toNat = 0x00EE := by rw [htpc]; exact hret
    rw [hword, decode_ret_word]
    exact exec_ret_of_ne_zero (Nat.succ_ne_zero s.sp)
  refine ⟨t, u, ht, htpc, rfl, hu, (hentry s.sp hsp).trans (if_pos rfl), rfl, hentry, ?frame⟩
  case frame => constructor <;> simp [u, t]

/-! ## The other operations -/

theorem step_of_cons {s : State} {op : HostOp} {rest : List HostOp} (hf : s.fault = none) (ha : s.agenda = op :: rest) :
    step s = perform op { s with agenda := rest } := by
  rw [step_of_no_fault hf, State.nextOp_of_cons ha, State.popAgenda, ha, List.tail_cons]

theorem opExec_of_exec {s u : State} {w : Word} {q : Bool} {inp : Inputs} (hf : s.fault = none)
    (hu : exec (decode s.params w) ((s.setInp inp).setQuirk q) = .next u) :
    opExec w q inp s = commit (s.setInp inp) (.next (u.setQuirk s.params.quirk)) := by
  simp only [opExec, hf, hu, mapNext]

/-- Settles O41: the parameters come back because no instruction writes one, and the flag is put back. -/
theorem execOperationRunsAWord : Obligations.ExecOperationRunsAWord := by
  intro s u w q inp rest hf ha hu
  have hparams : u.params = { s.params with quirk := q } := (exec_keeps_host_side hu).1
  rw [step_of_cons hf ha, perform, opExec_of_exec (s := { s with agenda := rest }) hf hu]
  refine ⟨fun huf => ?completes, fun c huf => commit_of_fault _ (u.setQuirk s.params.quirk) c huf⟩
  case completes => rw [commit_of_no_fault _ (u.setQuirk s.params.quirk) huf, State.setQuirk, hparams]

theorem opTick_of_running {s : State} (hf : s.fault = none) (hp : s.paused = false) :
    opTick s = (s.setDT (timerTick s.DT)).setST (timerTick s.ST) := by
  simp [opTick, hf, hp]

theorem opTick_of_paused {s : State} (hf : s.fault = none) (hp : s.paused = true) : opTick s = s := by
  simp [opTick, hf, hp]

/-- Settles O31: each timer takes its own tick, and a paused machine takes none. -/
theorem tickCountsDownToZero : Obligations.TickCountsDownToZero := by
  intro s rest hf ha
  rw [step_of_cons hf ha, perform]
  refine ⟨fun hp => ?running, fun hp => by rw [opTick_of_paused (s := { s with agenda := rest }) hf hp]⟩
  case running =>
    rw [opTick_of_running (s := { s with agenda := rest }) hf hp]
    refine ⟨_, rfl, timerTick_toNat s.DT, timerTick_toNat s.ST, rfl, ?_⟩
    constructor <;> simp [State.getV, State.byteAt]

theorem opLoad_of_le {s : State} {b : List Byte} (hf : s.fault = none) (hb : b.length ≤ maxProgram) :
    opLoad b s = s.storeBytes programBase b := by
  simp only [opLoad, hf, if_neg (Nat.not_lt.2 hb)]

theorem opLoad_of_gt {s : State} {b : List Byte} (hf : s.fault = none) (hb : maxProgram < b.length) :
    opLoad b s = s.raiseFatal .loadTooLarge := by
  simp only [opLoad, hf, if_pos hb]

/-- Settles O42: the stores change memory alone, and only the cells they name. -/
theorem loadWritesTheProgram : Obligations.LoadWritesTheProgram := by
  intro s b rest hf ha
  rw [step_of_cons hf ha, perform]
  refine ⟨fun hb => ?fits, fun hb => by rw [opLoad_of_gt (s := { s with agenda := rest }) hf hb]; rfl⟩
  case fits =>
    have hsame : State.storeBytes programBase b { s with agenda := rest } = _ :=
      State.storeBytes_sameButMem programBase b _ _ (.refl { s with agenda := rest })
    rw [opLoad_of_le (s := { s with agenda := rest }) hf hb]
    refine ⟨_, rfl, by rw [hsame], ?frame, fun hwf k hk => ?stored⟩
    case frame =>
      constructor
      case regs_kept => intro r _; rw [hsame]; rfl
      case cells_kept =>
        intro a hcell
        unfold cellsFrom at hcell
        exact State.byteAt_storeBytes_of_out _ _ _ _ (by unfold programBase; omega)
      case agenda_kept => exact fun h => absurd (by simp) h
      all_goals intros; rw [hsame]
    case stored =>
      exact State.byteAt_storeBytes programBase b _ k hk (Nat.add_le_of_le_sub' (by decide) hb) hwf

theorem opRedrawAck_of_no_fault {s : State} (hf : s.fault = none) : opRedrawAck s = s.ackRedraw := by
  simp only [opRedrawAck, hf]

/-- Settles O43: each operation is one update of the state with the operation off the agenda. -/
theorem queriesAndAcknowledgment : Obligations.QueriesAndAcknowledgment := by
  intro s rest hf
  refine ⟨fun ha => step_of_cons hf ha, fun ha => step_of_cons hf ha, fun ha => ?faultQuery, fun ha => ?redrawAck⟩
  case faultQuery => rw [step_of_cons hf ha, perform, opFaultQuery, hf, State.emit]
  case redrawAck =>
    rw [step_of_cons hf ha, perform, opRedrawAck_of_no_fault (s := { s with agenda := rest }) hf]
    rfl

theorem step_of_failed {s : State} {c : FatalCode} (hc : s.fault = some c) (hq : s.nextOp.isQuery = false) :
    step s = .fault (.halted c) := by
  simp [step, hostStep, hc, hq]

theorem step_of_failed_query {s : State} {c : FatalCode} {op : HostOp} {rest : List HostOp} (hc : s.fault = some c)
    (ha : s.agenda = op :: rest) (hq : op.isQuery = true) : step s = perform op { s with agenda := rest } := by
  simp [step, hostStep, hc, State.nextOp_of_cons ha, hq, State.popAgenda, ha]

theorem isQuery_eq_false {op : HostOp} (hb : op ≠ .fbRead) (hr : op ≠ .redrawQuery) (hf : op ≠ .faultQuery) :
    op.isQuery = false := by
  cases op with
  | fbRead => exact absurd rfl hb
  | redrawQuery => exact absurd rfl hr
  | faultQuery => exact absurd rfl hf
  | _ => rfl

/-- Settles O44: a failed machine looks at whether the operation is a query, before it performs it. -/
theorem failedMachineOnlyAnswersQueries : Obligations.FailedMachineOnlyAnswersQueries := by
  intro s c hc
  refine ⟨fun ha => step_of_failed hc (by rw [State.nextOp_of_nil ha]; rfl), fun op rest ha =>
    ⟨fun hop => ?fbRead, fun hop => ?redrawQuery, fun hop => ?faultQuery, fun hb hr hf => ?halted⟩⟩
  case fbRead => subst hop; exact step_of_failed_query hc ha rfl
  case redrawQuery => subst hop; exact step_of_failed_query hc ha rfl
  case faultQuery =>
    subst hop
    rw [step_of_failed_query hc ha rfl, perform, opFaultQuery, hc, State.emit]
  case halted => exact step_of_failed hc (by rw [State.nextOp_of_cons ha]; exact isQuery_eq_false hb hr hf)

/-! ## Memory and reset -/

/-- Settles O60: read after write, also of the two cells a fetch reads. -/
theorem storesAreReadBackAndFetched : Obligations.StoresAreReadBackAndFetched := by
  intro s a v w hwf ha
  refine ⟨fun b => State.byteAt_storeByte s a b v hwf, fun hpc hle => ?fetched⟩
  case fetched =>
    subst hpc
    have hwf' := s.storeByte_memWf s.pc.toNat v ha hwf
    have hle' : ((s.storeByte s.pc.toNat v).storeByte (s.pc.toNat + 1) w).pc.toNat ≤ 0xFFE := hle
    rw [State.fetch16_of_le hle', State.wordAt]
    simp [State.byteAt_storeByte _ _ _ _ hwf', State.byteAt_storeByte _ _ _ _ hwf]

/-- Settles O48: the fields of `State.create`, each read. -/
theorem resetState : Obligations.ResetState := by
  rintro p s rfl
  refine ⟨fun a h _ => resetByte_of_fontLen_le p h, fun r => ?regs, rfl, rfl, fun k hk => ?stack, rfl, rfl, rfl, rfl,
    rfl, Bitmap.cell_blank, rfl, rfl, rfl⟩
  case regs => simp [State.getV]
  case stack => simp [State.stackAt]

end Sys2Proof.Proofs
end

section
/-! PROOFS. What instructions do not read: the sound timer and redraw-pending (10_state.md sections 6 and 8), stack
entries at sp and above (section 5), and the quirk flag outside the five instructions of D22. Each is a change of the
state that commutes with the instructions that do not look at it. -/

namespace Sys2Proof.Proofs

open Sys2Proof.Machine

/-! ## Changes of the state that commute with its operations -/

/-- A change `f` of parts that the shared operations neither read nor write: what they read is as before, and what they
write they write alike before and after it. The parts that only some instructions touch (the quirk flag, the stack, the
display, the sound timer) are the hypotheses of `exec_commutes`. -/
structure Unread (f : State → State) : Prop where
  V : ∀ s, (f s).V = s.V
  mem : ∀ s, (f s).mem = s.mem
  image : ∀ s, resetByte (f s).params = resetByte s.params
  I : ∀ s, (f s).I = s.I
  pc : ∀ s, (f s).pc = s.pc
  DT : ∀ s, (f s).DT = s.DT
  fb : ∀ s, (f s).fb = s.fb
  inp : ∀ s, (f s).inp = s.inp
  draws : ∀ s, (f s).draws = s.draws
  setV : ∀ s x v, (f s).setV x v = f (s.setV x v)
  loadV : ∀ (s : State) k v, { f s with V := s.V.setIfInBounds k v } = f { s with V := s.V.setIfInBounds k v }
  setMem : ∀ s m, { f s with mem := m } = f { s with mem := m }
  setI : ∀ s v, (f s).setI v = f (s.setI v)
  setPc : ∀ s a, (f s).setPc a = f (s.setPc a)
  setDT : ∀ s v, (f s).setDT v = f (s.setDT v)
  setPause : ∀ s x, (f s).setPause x = f (s.setPause x)
  countDraw : ∀ s, (f s).countDraw = f s.countDraw
  emit : ∀ s o, (f s).emit o = f (s.emit o)
  raiseFatal : ∀ s c, (f s).raiseFatal c = f (s.raiseFatal c)

section Commutes

variable {f : State → State}

theorem Unread.getV (hf : Unread f) (s : State) (x : Reg) : (f s).getV x = s.getV x := by
  rw [State.getV, State.getV, hf.V]

theorem Unread.byteAt (hf : Unread f) (s : State) (a : Nat) : (f s).byteAt a = s.byteAt a := by
  rw [State.byteAt, State.byteAt, hf.mem, hf.image]

theorem Unread.dataBase (hf : Unread f) (s : State) : (f s).dataBase = s.dataBase := congrArg BitVec.toNat (hf.I s)

theorem Unread.storeByte (hf : Unread f) (s : State) (a : Nat) (v : Byte) :
    (f s).storeByte a v = f (s.storeByte a v) := by
  rw [State.storeByte, hf.mem, hf.image, hf.setMem, State.storeByte]

theorem Unread.storeRegs (hf : Unread f) (s : State) (base n : Nat) :
    (f s).storeRegs base n = f (s.storeRegs base n) := by
  induction n with
  | zero => rfl
  | succ k ih => rw [State.storeRegs, ih, State.regAt, hf.V, hf.storeByte, State.storeRegs, State.regAt]

theorem Unread.loadRegs (hf : Unread f) (s : State) (base n : Nat) :
    (f s).loadRegs base n = f (s.loadRegs base n) := by
  induction n with
  | zero => rfl
  | succ k ih =>
    simp only [State.loadRegs]
    rw [ih, hf.byteAt, hf.V, hf.loadV]

theorem Unread.storeDigits (hf : Unread f) (s : State) (base : Nat) (v : Byte) :
    (f s).storeDigits base v = f (s.storeDigits base v) := by
  simp only [State.storeDigits, hf.storeByte]

theorem Unread.skipIf (hf : Unread f) (s : State) (c : Bool) : (f s).skipIf c = f (s.skipIf c) := by
  rw [State.skipIf_eq, State.skipIf_eq, hf.pc, hf.setPc]

theorem Unread.keyQueried (hf : Unread f) (s : State) (k : Byte) : (f s).keyQueried k = f (s.keyQueried k) := by
  unfold State.keyQueried
  split
  · rfl
  · exact hf.emit s _

theorem Unread.keyPressed (hf : Unread f) (s : State) (k : Byte) : (f s).keyPressed k = s.keyPressed k := by
  rw [State.keyPressed, State.keyPressed, hf.inp]

theorem Unread.blit (hf : Unread f) (s : State) (vx vy : Byte) (base : Nat) (n : Fin 16) :
    (f s).blit vx vy base n = s.blit vx vy base n := by
  simp only [State.blit, hf.byteAt, hf.fb]

theorem Unread.quirkCopy (hf : Unread f) (hq : ∀ s, (f s).params.quirk = s.params.quirk) (s : State) (x y : Reg) :
    (f s).quirkCopy x y = f (s.quirkCopy x y) := by
  unfold State.quirkCopy
  rw [hq, hf.getV, hf.setV]
  split <;> rfl

theorem Unread.flagThenResult (hf : Unread f) (s : State) (c : Bool) (x : Reg) {result : State → Byte}
    (hr : ∀ s, result (f s) = result s) : (f s).flagThenResult c x result = f (s.flagThenResult c x result) := by
  simp only [State.flagThenResult, State.setVF_eq, hf.setV, hr]

theorem Unread.withData (hf : Unread f) (base len : Nat) (s : State) {k : State → State}
    (hk : k (f s) = f (k s)) : Machine.withData base len (f s) k = mapNext f (Machine.withData base len s k) := by
  rcases withData_cases base len s k with ⟨hb, h⟩ | ⟨hb, h⟩
  · rw [h, Machine.withData, if_pos hb, hk, mapNext]
  · rw [h, Machine.withData, if_neg (by rw [hb]; decide), hf.raiseFatal, mapNext]

/-- The instructions that read the quirk flag (D22). -/
def ReadsQuirk (i : Instr) : Prop :=
  (∃ x y, i = .shr x y) ∨ (∃ x y, i = .shl x y) ∨ (∃ nnn, i = .jpOff nnn) ∨ (∃ x, i = .ldMemVx x) ∨
    ∃ x, i = .ldVxMem x

/-- The instructions that work on the call stack (R111, R113). -/
def UsesStack (i : Instr) : Prop := i = .ret ∨ ∃ nnn, i = .call nnn

/-- The instructions that write the display (R185, R186). -/
def WritesDisplay (i : Instr) : Prop := i = .cls ∨ ∃ x y n, i = .drw x y n

/-- An instruction commutes with a change of parts it neither reads nor writes. -/
theorem exec_commutes (hf : Unread f) (i : Instr) (s : State)
    (hquirk : ReadsQuirk i → ∀ s, (f s).params.quirk = s.params.quirk)
    (hstack : UsesStack i → (∀ s, (f s).stack = s.stack ∧ (f s).sp = s.sp) ∧
      (∀ s a, (f s).push a = f (s.push a)) ∧ ∀ s n, (f s).setSp n = f (s.setSp n))
    (hdisplay : WritesDisplay i → ∀ s fb, (f s).setFb fb = f (s.setFb fb))
    (hsound : (∃ x, i = .ldStVx x) → ∀ s v, (f s).setST v = f (s.setST v)) :
    exec i (f s) = mapNext f (exec i s) := by
  cases i with
  | cls => exact congrArg Host.Outcome.next (hdisplay (.inl rfl) s Bitmap.blank)
  | drw x y n =>
    simp only [exec, execDrw, hf.getV, hf.dataBase]
    refine hf.withData _ _ s ?_
    simp only [hf.getV, hf.blit, hf.dataBase, hdisplay (.inr ⟨x, y, n, rfl⟩), State.setVF_eq, hf.setV]
  | ret =>
    obtain ⟨hread, -, hsetSp⟩ := hstack (.inl rfl)
    simp only [exec, execRet, State.stackAt, (hread s).1, (hread s).2, State.diag_eq, hf.emit, hsetSp, hf.setPc]
    split <;> rfl
  | call nnn =>
    obtain ⟨hread, hpush, -⟩ := hstack (.inr ⟨nnn, rfl⟩)
    simp only [exec, execCall, (hread s).2, hf.pc, hpush, hf.setPc, hf.raiseFatal]
    split <;> rfl
  | jpOff nnn =>
    simp only [exec, execJpOff, hquirk (.inr (.inr (.inl ⟨nnn, rfl⟩))), hf.getV, hf.setPc, mapNext]
  | shr x y =>
    have hcopy := hf.quirkCopy (hquirk (.inl ⟨x, y, rfl⟩))
    simp only [exec, execShr, hcopy, hf.getV, mapNext]
    rw [hf.flagThenResult _ _ _ fun s => by rw [hf.getV]]
  | shl x y =>
    have hcopy := hf.quirkCopy (hquirk (.inr (.inl ⟨x, y, rfl⟩)))
    simp only [exec, execShl, hcopy, hf.getV, mapNext]
    rw [hf.flagThenResult _ _ _ fun s => by rw [hf.getV]]
  | ldMemVx x =>
    have hq := hquirk (.inr (.inr (.inr (.inl ⟨x, rfl⟩))))
    simp only [exec, execLdMemVx, hf.dataBase]
    refine hf.withData _ _ s ?_
    simp only [hf.dataBase, hf.storeRegs, hq, hf.I, hf.setI]
  | ldVxMem x =>
    have hq := hquirk (.inr (.inr (.inr (.inr ⟨x, rfl⟩))))
    simp only [exec, execLdVxMem, hf.dataBase]
    refine hf.withData _ _ s ?_
    simp only [hf.dataBase, hf.loadRegs, hq, hf.I, hf.setI]
  | ldBVx x =>
    simp only [exec, execLdBVx, hf.dataBase]
    refine hf.withData _ _ s ?_
    simp only [hf.dataBase, hf.getV, hf.storeDigits]
  | ldStVx x => simp only [exec, execLdStVx, hf.getV, hsound ⟨x, rfl⟩, mapNext]
  | ldDtVx x => simp only [exec, execLdDtVx, hf.getV, hf.setDT, mapNext]
  | ldVxDt x => simp only [exec, execLdVxDt, hf.DT, hf.setV, mapNext]
  | ldVxK x => simp only [exec, execLdVxK, hf.setPause, hf.pc, hf.setPc, mapNext]
  | ldI nnn => simp only [exec, execLdI, hf.setI, mapNext]
  | ldFVx x => simp only [exec, execLdFVx, hf.getV, hf.setI, mapNext]
  | addIVx x => simp only [exec, execAddIVx, hf.I, hf.getV, hf.setI, State.setVF_eq, hf.setV, mapNext]
  | rnd x nn => simp only [exec, execRnd, State.nextRandom, hf.draws, hf.countDraw, hf.setV, mapNext]
  | skp x => simp only [exec, execSkp, hf.getV, hf.keyQueried, hf.keyPressed, hf.skipIf, mapNext]
  | sknp x => simp only [exec, execSknp, hf.getV, hf.keyQueried, hf.keyPressed, hf.skipIf, mapNext]
  | sub x y =>
    simp only [exec, execSub, hf.getV, mapNext]
    rw [hf.flagThenResult _ _ _ fun s => by rw [hf.getV, hf.getV]]
  | subn x y =>
    simp only [exec, execSubn, hf.getV, mapNext]
    rw [hf.flagThenResult _ _ _ fun s => by rw [hf.getV, hf.getV]]
  | addReg x y => simp only [exec, execAddReg, hf.getV, State.setVF_eq, hf.setV, mapNext]
  | ldImm x nn => simp only [exec, execLdImm, hf.setV, mapNext]
  | addImm x nn => simp only [exec, execAddImm, hf.getV, hf.setV, mapNext]
  | ldReg x y => simp only [exec, execLdReg, hf.getV, hf.setV, mapNext]
  | orReg x y => simp only [exec, execOrReg, hf.getV, hf.setV, mapNext]
  | andReg x y => simp only [exec, execAndReg, hf.getV, hf.setV, mapNext]
  | xorReg x y => simp only [exec, execXorReg, hf.getV, hf.setV, mapNext]
  | jp nnn => simp only [exec, execJp, hf.setPc, mapNext]
  | seImm x nn => simp only [exec, execSeImm, hf.getV, hf.skipIf, mapNext]
  | sneImm x nn => simp only [exec, execSneImm, hf.getV, hf.skipIf, mapNext]
  | seReg x y => simp only [exec, execSeReg, hf.getV, hf.skipIf, mapNext]
  | sneReg x y => simp only [exec, execSneReg, hf.getV, hf.skipIf, mapNext]
  | unrecognized w => rfl

end Commutes

/-! ## The quirk flag (D22) -/

theorem unread_setQuirk (q : Bool) : Unread (State.setQuirk q) := by
  constructor <;> intros <;> rfl

/-- Settles O58: the change of the flag commutes with every instruction that does not read it. -/
theorem quirkChangesOnlyFiveInstructions : Obligations.QuirkChangesOnlyFiveInstructions := by
  intro s i q hshr hshl hjpOff hstore hload
  have hread : ¬ReadsQuirk i := by
    rintro (⟨x, y, e⟩ | ⟨x, y, e⟩ | ⟨nnn, e⟩ | ⟨x, e⟩ | ⟨x, e⟩)
    exacts [hshr x y e, hshl x y e, hjpOff nnn e, hstore x e, hload x e]
  have hcomm := exec_commutes (unread_setQuirk q) i s (fun h => absurd h hread)
    (fun _ => ⟨fun _ => ⟨rfl, rfl⟩, fun _ _ => rfl, fun _ _ => rfl⟩) (fun _ _ _ => rfl) fun _ _ _ => rfl
  obtain ⟨t, ht⟩ := everyInstructionAnswersANextState i s
  have hparams : t.params = s.params := (exec_keeps_host_side ht).1
  refine ⟨t, ht, hcomm.trans ?_⟩
  rw [ht, mapNext, State.setQuirk, hparams]

/-! ## The sound timer and redraw-pending -/

/-- The two given other values. -/
def withSoundAndRedraw (v : Byte) (b : Bool) (s : State) : State := { s with ST := v, redraw := b }

theorem unread_withSoundAndRedraw (v : Byte) (b : Bool) : Unread (withSoundAndRedraw v b) := by
  constructor <;> intros <;> rfl

/-- A draw writes the same over any value of the two. -/
theorem exec_drw_withSoundAndRedraw (x y : Reg) (n : Fin 16) (v : Byte) (b : Bool) (s : State) :
    ∃ t t', exec (.drw x y n) s = .next t ∧ exec (.drw x y n) (withSoundAndRedraw v b s) = .next t' ∧
      t' = { t with ST := t'.ST, redraw := t'.redraw } ∧ t'.ST = v := by
  by_cases h : s.SpriteInMemory (s.getV y) n
  · exact ⟨_, _, exec_drw_of_inMemory s x y n h, exec_drw_of_inMemory (withSoundAndRedraw v b s) x y n h, rfl, rfl⟩
  · exact ⟨_, _, exec_drw_of_outOfMemory s x y n h,
      exec_drw_of_outOfMemory (withSoundAndRedraw v b s) x y n h, rfl, rfl⟩

/-- Settles O56: the instructions that write one of the two write the same over any other value, and with the rest the
change commutes. -/
theorem soundTimerAndRedrawAreNotRead : Obligations.SoundTimerAndRedrawAreNotRead := by
  intro s i v b
  by_cases hdisplay : WritesDisplay i
  · rcases hdisplay with rfl | ⟨x, y, n, rfl⟩
    · exact ⟨_, _, exec_cls s, exec_cls _, rfl, fun _ => rfl⟩
    · obtain ⟨t, t', ht, ht', hsame, hST⟩ := exec_drw_withSoundAndRedraw x y n v b s
      exact ⟨t, t', ht, ht', hsame, fun _ => hST⟩
  by_cases hsound : ∃ x, i = .ldStVx x
  · obtain ⟨x, rfl⟩ := hsound
    exact ⟨_, _, exec_ldStVx x s, exec_ldStVx x _, rfl, fun h => absurd rfl (h x)⟩
  have hcomm := exec_commutes (unread_withSoundAndRedraw v b) i s (fun _ _ => rfl)
    (fun _ => ⟨fun _ => ⟨rfl, rfl⟩, fun _ _ => rfl, fun _ _ => rfl⟩) (fun h => absurd h hdisplay)
    fun h => absurd h hsound
  obtain ⟨t, ht⟩ := everyInstructionAnswersANextState i s
  rw [ht] at hcomm
  exact ⟨t, withSoundAndRedraw v b t, ht, hcomm, rfl, fun _ => rfl⟩

/-! ## Stack entries at sp and above -/

/-- The stack given other entries. -/
def withStack (st : Vector Word 16) (s : State) : State := { s with stack := st }

theorem unread_withStack (st : Vector Word 16) : Unread (withStack st) := by
  constructor <;> intros <;> rfl

/-- The two states of the statement about stale entries: alike but for the stack, and there alike below sp. -/
def SameButStale (t' t : State) : Prop :=
  t = { t' with stack := t.stack } ∧ ∀ k, k < t.sp → t'.stackAt k = t.stackAt k

/-- CALL writes the same live entry onto both stacks, or fails on both. -/
theorem exec_call_withStack (nnn : Imm12) {s : State} {st : Vector Word 16}
    (hlive : ∀ k, k < s.sp → (withStack st s).stackAt k = s.stackAt k) :
    ∃ t t', exec (.call nnn) s = .next t ∧ exec (.call nnn) (withStack st s) = .next t' ∧ SameButStale t' t := by
  by_cases h : s.sp < 16
  · refine ⟨_, _, exec_call_of_lt nnn h, exec_call_of_lt (s := withStack st s) nnn h, rfl, fun k hk => ?_⟩
    have hk' : k < s.sp + 1 := hk
    have hpush : ((withStack st s).push s.pc).stackAt k = (s.push s.pc).stackAt k := by
      rw [stackAt_push _ _ (by omega), stackAt_push _ _ (by omega)]
      exact ite_congr rfl (fun _ => rfl) fun htop : ¬k = s.sp => hlive k (by omega)
    exact hpush
  · exact ⟨_, _, exec_call_of_not_lt nnn h, exec_call_of_not_lt (s := withStack st s) nnn h, rfl, hlive⟩

/-- RET reads a live entry, or none. -/
theorem exec_ret_withStack {s : State} {st : Vector Word 16}
    (hlive : ∀ k, k < s.sp → (withStack st s).stackAt k = s.stackAt k) :
    ∃ t t', exec .ret s = .next t ∧ exec .ret (withStack st s) = .next t' ∧ SameButStale t' t := by
  by_cases h : s.sp = 0
  · exact ⟨_, _, exec_ret_of_zero h, exec_ret_of_zero (s := withStack st s) h, rfl, hlive⟩
  · refine ⟨_, _, exec_ret_of_ne_zero h, exec_ret_of_ne_zero (s := withStack st s) h, ?_, fun k hk => ?_⟩
    · rw [show (withStack st s).stackAt ((withStack st s).sp - 1) = s.stackAt (s.sp - 1) from
        hlive (s.sp - 1) (by omega)]
      rfl
    · have hk' : k < s.sp - 1 := hk
      exact hlive k (by omega)

/-- Settles O57: CALL and RET touch live entries alone, and with the rest the change of the stack commutes. -/
theorem staleStackEntriesAreNotObservable : Obligations.StaleStackEntriesAreNotObservable := by
  intro s t i st ht _ hlive
  by_cases hi : UsesStack i
  · obtain ⟨u, u', hu, hu', hsame⟩ :
        ∃ u u', exec i s = .next u ∧ exec i (withStack st s) = .next u' ∧ SameButStale u' u := by
      rcases hi with rfl | ⟨nnn, rfl⟩
      · exact exec_ret_withStack hlive
      · exact exec_call_withStack nnn hlive
    cases ht.symm.trans hu
    exact ⟨u', hu', hsame⟩
  · have hcomm := exec_commutes (unread_withStack st) i s (fun _ _ => rfl) (fun h => absurd h hi) (fun _ _ _ => rfl)
      fun _ _ _ => rfl
    have hcall : ∀ nnn, i ≠ .call nnn := fun nnn e => hi (.inr ⟨nnn, e⟩)
    have hstack : t.stack = s.stack := exec_keeps_stack ht hcall
    have hsp : t.sp = s.sp := exec_keeps_sp ht hcall fun e => hi (.inl e)
    rw [ht] at hcomm
    refine ⟨withStack st t, hcomm, rfl, fun k hk => ?_⟩
    exact (hlive k (hsp ▸ hk)).trans (stackAt_congr hstack k).symm

end Sys2Proof.Proofs
end
